-- ==== Sys2Proof/Config.lean ====
section
/-!
DEFINITION. The mnemonics and the fixed parameters of spec/00_scope.md R7. The widths and counts stand here; the three
parameters that are the spec's own decisions stand where a repair can reach them: `Config.opc` in Decode.lean (D2),
`Config.cwBit` in Machine/Control.lean (D3), `Config.jmpLen` in Machine/Microcode.lean (D8). Each is the one place its value
is written; every type and definition that depends on it names it.
-/

namespace Sys2Proof

/-- The six mnemonics of the closed instruction set (R3). -/
inductive Mnemonic
  | nop | lda | add | jmp | out | halt
deriving DecidableEq, Repr

/-- Every mnemonic, in the order R3 lists them. -/
def Mnemonic.all : List Mnemonic := [.nop, .lda, .add, .jmp, .out, .halt]

/-- `DATA_W`: bits of the bus, of a cell, of `ir`, `a`, `b` and `out`. -/
abbrev Config.dataW : Nat := 8

/-- `ADDR_W`: bits of `pc` and `addr`. -/
abbrev Config.addrW : Nat := 4

/-- `MEM_CELLS`: the number of memory cells. -/
abbrev Config.memCells : Nat := 16

/-- `OPC_W`: bits of the opcode field. -/
abbrev Config.opcW : Nat := 4

/-- `OPR_W`: bits of the operand field. -/
abbrev Config.oprW : Nat := 4

/-- `NUM_FLAGS`: the number of control lines. -/
abbrev Config.numFlags : Nat := 15

/-- `FETCH_LEN`: the number of fetch words. -/
abbrev Config.fetchLen : Nat := 3

end Sys2Proof
end

