-- ==== Sys2Proof/Word.lean ====
section
/-!
DEFINITION. The word types of the block (spec/00_scope.md R7, R8): every value is an unsigned integer of a stated width. The
spec's `Byte` is `DATA_W` bits; its `Nib` is an address, an opcode or an operand, each of its own width in R7.
-/

namespace Sys2Proof

/-- An unsigned value of `DATA_W` bits: the bus, a memory cell, `ir`, `a`, `b`, `out` (R7, R13). -/
abbrev Byte := BitVec Config.dataW

/-- An unsigned value of `ADDR_W` bits: `pc`, `addr`, a cell's address (R7, R13). -/
abbrev Nib := BitVec Config.addrW

/-- An opcode, `OPC_W` bits (R7, R48). -/
abbrev Opcode := BitVec Config.opcW

/-- An operand nibble, `OPR_W` bits (R7, R48). -/
abbrev Operand := BitVec Config.oprW

end Sys2Proof
end

