-- ==== Sys2Proof/Syntax.lean ====
section
/-!
DEFINITION. The instructions: one constructor per row of spec/opcode_table.json. Each carries the operand nibble of its
cell (spec/30_encoding.md R48); the rows that ignore the operand keep it, because it still lands in `ir` (R49).
-/

namespace Sys2Proof

/-- One constructor per row of the opcode table (R50, R51). The ten unassigned rows are the opcodes that the opcode map leaves
over, in rising order: under the default map, the numbers their docstrings give (notes/assumptions/20.md). -/
inductive Instr
  /-- NOP, no operation; the operand is ignored (R82). -/
  | nop (operand : Operand)
  /-- LDA n, load A from memory address n (R83). -/
  | lda (n : Operand)
  /-- ADD n, add the cell at address n into A (R84). -/
  | add (n : Operand)
  /-- Opcode 0x3, unassigned: runs as NOP (R88). -/
  | unassigned3 (operand : Operand)
  /-- Opcode 0x4, unassigned: runs as NOP (R88). -/
  | unassigned4 (operand : Operand)
  /-- Opcode 0x5, unassigned: runs as NOP (R88). -/
  | unassigned5 (operand : Operand)
  /-- JMP n, jump to address n (R85). -/
  | jmp (n : Operand)
  /-- Opcode 0x7, unassigned: runs as NOP (R88). -/
  | unassigned7 (operand : Operand)
  /-- Opcode 0x8, unassigned: runs as NOP (R88). -/
  | unassigned8 (operand : Operand)
  /-- Opcode 0x9, unassigned: runs as NOP (R88). -/
  | unassigned9 (operand : Operand)
  /-- Opcode 0xA, unassigned: runs as NOP (R88). -/
  | unassignedA (operand : Operand)
  /-- Opcode 0xB, unassigned: runs as NOP (R88). -/
  | unassignedB (operand : Operand)
  /-- Opcode 0xC, unassigned: runs as NOP (R88). -/
  | unassignedC (operand : Operand)
  /-- Opcode 0xD, unassigned: runs as NOP (R88). -/
  | unassignedD (operand : Operand)
  /-- OUT, copy A to the output latch; the operand is ignored (R86). -/
  | out (operand : Operand)
  /-- HALT, stop the machine; the operand is ignored (R87). -/
  | halt (operand : Operand)
deriving DecidableEq, Repr

end Sys2Proof
end

