-- ==== Sys2Proof/WellFormed.lean ====
section
/-!
DEFINITION. Well-formedness relative to an opcode map (spec/30_encoding.md R50). The operand is in range by its type, and the
unassigned rows are whatever opcodes the map leaves over (R51), so one thing can be wrong: the map is not injective. Control
words have their own check in Machine/Control.lean (R61).
-/

namespace Sys2Proof

/-- "`OPC` must be injective" (R50). -/
def opcInjective (opc : Mnemonic → Opcode) : Bool :=
  Mnemonic.all.all fun m => Mnemonic.all.all fun k => decide (opc m = opc k → m = k)

/-- `i` is an instruction under the map `opc` when `opc` is an opcode map at all; then every row has an opcode of its own. -/
def Instr.wellFormedFor (opc : Mnemonic → Opcode) (_i : Instr) : Bool := opcInjective opc

end Sys2Proof
end

