-- ==== Sys2Proof/Decode.lean ====
section
/-!
DEFINITION. The opcode map, the decoder and the encoder (spec/30_encoding.md R47 to R52). Each takes the opcode map as an
argument where it reads one (R7, R50); the machine's own are those at `Config.opc`.
-/

namespace Sys2Proof

/-- `OPC`, the opcode of each mnemonic, at its default (R50). PRESUMED: the source gives no opcode numbers; the spec takes
them from the breadboard-CPU tradition (decision D2, G1; notes/assumptions/4.md). Unsafe for a claim about given bytes. Any
injective map may stand here: no other definition holds an opcode number. -/
def Config.opc : Mnemonic → Opcode
  | .nop => 0x0
  | .lda => 0x1
  | .add => 0x2
  | .jmp => 0x6
  | .out => 0xE
  | .halt => 0xF

/-- The mnemonic that an opcode map gives an opcode, `none` for an unassigned opcode (R50, R51). -/
def mnemonicOf (opc : Mnemonic → Opcode) (op : Opcode) : Option Mnemonic :=
  Mnemonic.all.find? fun m => opc m == op

/-- `ir[7:4]`, the opcode field of a cell (R48). -/
def opcodeField (cell : Byte) : Opcode := cell.extractLsb' Config.oprW Config.opcW

/-- `ir[3:0]`, the operand field of a cell (R48). -/
def operandField (cell : Byte) : Operand := cell.extractLsb' 0 Config.oprW

/-- `cell = (opcode << 4) | operand` (R48). -/
def cellOf (op : Opcode) (n : Operand) : Byte := op ++ n

/-- Every opcode value, in rising order. -/
def allOpcodes : List Opcode := (List.range (2 ^ Config.opcW)).map (BitVec.ofNat Config.opcW)

/-- The opcode values that `opc` gives to no mnemonic, in rising order (R51). -/
def unassignedOpcodes (opc : Mnemonic → Opcode) : List Opcode :=
  allOpcodes.filter fun op => (mnemonicOf opc op).isNone

/-- The opcode of the `k`-th unassigned row. An injective map leaves ten opcodes over, so the default is never taken. -/
def unassignedOpcode (opc : Mnemonic → Opcode) (k : Nat) : Opcode := (unassignedOpcodes opc).getD k 0

/-- The `k`-th row that the table lists as unassigned, with operand `n` (R51). -/
def unassignedRow (k : Nat) (n : Operand) : Instr :=
  match k with
  | 0 => .unassigned3 n
  | 1 => .unassigned4 n
  | 2 => .unassigned5 n
  | 3 => .unassigned7 n
  | 4 => .unassigned8 n
  | 5 => .unassigned9 n
  | 6 => .unassignedA n
  | 7 => .unassignedB n
  | 8 => .unassignedC n
  | _ => .unassignedD n

/-- The instruction a cell holds under an opcode map. Total: "Every one of the 256 cell values decodes" (R52). -/
def decodeCellFor (opc : Mnemonic → Opcode) (cell : Byte) : Instr :=
  match mnemonicOf opc (opcodeField cell) with
  | some .nop => .nop (operandField cell)
  | some .lda => .lda (operandField cell)
  | some .add => .add (operandField cell)
  | some .jmp => .jmp (operandField cell)
  | some .out => .out (operandField cell)
  | some .halt => .halt (operandField cell)
  | none => unassignedRow ((unassignedOpcodes opc).idxOf (opcodeField cell)) (operandField cell)

/-- The instruction a cell holds. -/
def decodeCell (cell : Byte) : Instr := decodeCellFor Config.opc cell

/-- Why a list of bytes holds no instruction. -/
inductive DecodeError
  /-- There is no byte to read. No cell is refused (R52). -/
  | noCell
deriving DecidableEq, Repr

/-- Decode the first instruction of a list of bytes and answer the rest: an instruction is exactly one cell (R47). -/
def decode : List Byte → Except DecodeError (Instr × List Byte)
  | [] => .error .noCell
  | cell :: rest => .ok (decodeCell cell, rest)

/-- The opcode of an instruction under an opcode map (R50, R51). -/
def Instr.opcodeFor (opc : Mnemonic → Opcode) : Instr → Opcode
  | .nop _ => opc .nop
  | .lda _ => opc .lda
  | .add _ => opc .add
  | .jmp _ => opc .jmp
  | .out _ => opc .out
  | .halt _ => opc .halt
  | .unassigned3 _ => unassignedOpcode opc 0
  | .unassigned4 _ => unassignedOpcode opc 1
  | .unassigned5 _ => unassignedOpcode opc 2
  | .unassigned7 _ => unassignedOpcode opc 3
  | .unassigned8 _ => unassignedOpcode opc 4
  | .unassigned9 _ => unassignedOpcode opc 5
  | .unassignedA _ => unassignedOpcode opc 6
  | .unassignedB _ => unassignedOpcode opc 7
  | .unassignedC _ => unassignedOpcode opc 8
  | .unassignedD _ => unassignedOpcode opc 9

/-- The opcode of an instruction. -/
def Instr.opcode (i : Instr) : Opcode := i.opcodeFor Config.opc

/-- The operand nibble of an instruction (R48, R49). -/
def Instr.operand : Instr → Operand
  | .nop n | .lda n | .add n | .unassigned3 n | .unassigned4 n | .unassigned5 n | .jmp n | .unassigned7 n
  | .unassigned8 n | .unassigned9 n | .unassignedA n | .unassignedB n | .unassignedC n | .unassignedD n
  | .out n | .halt n => n

/-- `i` is an instruction under the machine's opcode map. -/
def Instr.wellFormed (i : Instr) : Bool := i.wellFormedFor Config.opc

/-- The cell of an instruction under an opcode map (R48). -/
def encodeCellFor (opc : Mnemonic → Opcode) (i : Instr) : Byte := cellOf (i.opcodeFor opc) i.operand

/-- The cell of an instruction. -/
def encodeCell (i : Instr) : Byte := encodeCellFor Config.opc i

/-- The bytes of an instruction: one cell (R47). -/
def encode (i : Instr) : List Byte := [encodeCell i]

/-- The instruction the decoder reads from an instruction whose bits are `w`, bit 0 the least significant bit of its one
byte; the bits above `nbits` are 0. -/
def decodeTableWord (nbits w : Nat) : Option Instr :=
  match decode [BitVec.ofNat Config.dataW (w % 2 ^ nbits)] with
  | .ok (i, _) => some i
  | .error _ => none

end Sys2Proof
end

