-- ==== Sys2Proof/Machine/Control.lean ====
section
/-!
DEFINITION. The control-flag vocabulary and the control word (spec/30_encoding.md R53, R54; spec/40_control_flag_handlers.md
R57, R61).
-/

namespace Sys2Proof

/-- The 15 control flags, in the order of R54. PRESUMED names: IO, AO, CO, EO, BI, OI, MI, RI and II are the spec's own
abbreviations (D4, G2; notes/assumptions/21.md). Names only, safe. -/
inductive Flag
  | ro | io | ao | co | eo
  | bi | oi | mi | ri | ii | ai
  | hlt | ce | j
  | su
deriving DecidableEq, Repr

/-- The four classes of control flags (R57). DESIGN CHOICE of the spec: SU has a class of its own (D6). -/
inductive FlagClass
  | output | input | misc | modifier
deriving DecidableEq, Repr

/-- Every flag, in the order of R54. -/
def Flag.all : List Flag := [.ro, .io, .ao, .co, .eo, .bi, .oi, .mi, .ri, .ii, .ai, .hlt, .ce, .j, .su]

/-- The class of a flag (R57). -/
def Flag.kind : Flag → FlagClass
  | .ro | .io | .ao | .co | .eo => .output
  | .bi | .oi | .mi | .ri | .ii | .ai => .input
  | .hlt | .ce | .j => .misc
  | .su => .modifier

/-- `CW_BIT`, the bit of each flag in a control word shown as a number, at its default (R54). DESIGN CHOICE of the spec:
the source calls the bitfield opaque (D3; notes/assumptions/5.md). No behaviour reads it. -/
def Config.cwBit : Flag → Nat
  | .ro => 0
  | .io => 1
  | .ao => 2
  | .co => 3
  | .eo => 4
  | .bi => 5
  | .oi => 6
  | .mi => 7
  | .ri => 8
  | .ii => 9
  | .ai => 10
  | .hlt => 11
  | .ce => 12
  | .j => 13
  | .su => 14

/-- A control word: the set of control flags asserted for one cycle (R53), one boolean per flag. -/
structure ControlWord where
  ro : Bool
  io : Bool
  ao : Bool
  co : Bool
  eo : Bool
  bi : Bool
  oi : Bool
  mi : Bool
  ri : Bool
  ii : Bool
  ai : Bool
  hlt : Bool
  ce : Bool
  j : Bool
  su : Bool
deriving DecidableEq, Repr

/-- `cw.F`: true when the flag is asserted (R9). -/
def ControlWord.has (cw : ControlWord) : Flag → Bool
  | .ro => cw.ro
  | .io => cw.io
  | .ao => cw.ao
  | .co => cw.co
  | .eo => cw.eo
  | .bi => cw.bi
  | .oi => cw.oi
  | .mi => cw.mi
  | .ri => cw.ri
  | .ii => cw.ii
  | .ai => cw.ai
  | .hlt => cw.hlt
  | .ce => cw.ce
  | .j => cw.j
  | .su => cw.su

/-- The word that asserts exactly the flags listed (the spec's braces). -/
def ControlWord.ofFlags (fs : List Flag) : ControlWord where
  ro := fs.elem .ro
  io := fs.elem .io
  ao := fs.elem .ao
  co := fs.elem .co
  eo := fs.elem .eo
  bi := fs.elem .bi
  oi := fs.elem .oi
  mi := fs.elem .mi
  ri := fs.elem .ri
  ii := fs.elem .ii
  ai := fs.elem .ai
  hlt := fs.elem .hlt
  ce := fs.elem .ce
  j := fs.elem .j
  su := fs.elem .su

/-- The number of bus-output flags a word asserts. -/
def ControlWord.outputs (cw : ControlWord) : Nat :=
  cw.ro.toNat + cw.io.toNat + cw.ao.toNat + cw.co.toNat + cw.eo.toNat

/-- Some handler of the word reads the bus: an input flag or J is asserted (R57, R61). -/
def ControlWord.readsBus (cw : ControlWord) : Bool :=
  cw.bi || cw.oi || cw.mi || cw.ri || cw.ii || cw.ai || cw.j

/-- R61: at most one output flag, and exactly one if any input flag or J is asserted. -/
def ControlWord.wellFormed (cw : ControlWord) : Bool :=
  decide (cw.outputs ≤ 1) && (!cw.readsBus || decide (cw.outputs = 1))

/-- A control word as the number of R54, `NUM_FLAGS` bits: bit `Config.cwBit f` is set when `f` is asserted. -/
def ControlWord.toBits (cw : ControlWord) : BitVec Config.numFlags :=
  Flag.all.foldl (fun acc f => if cw.has f then acc ||| (1#Config.numFlags <<< Config.cwBit f) else acc) 0

/-- The control word a number shows (R54). -/
def ControlWord.ofBits (v : BitVec Config.numFlags) : ControlWord :=
  ControlWord.ofFlags (Flag.all.filter fun f => v.getLsbD (Config.cwBit f))

end Sys2Proof
end

