-- ==== Sys2Proof/Machine/Microcode.lean ====
section
/-!
DEFINITION. The three fetch words (spec/42_sequencer_and_clock.md R90) and the microcode ROM
(spec/41_microcode_rom.md R79 to R81).
-/

namespace Sys2Proof

/-- F0 `{CO, MI}` (R90). -/
def fetch0 : ControlWord := .ofFlags [.co, .mi]

/-- F1 `{RO, II}` (R90). -/
def fetch1 : ControlWord := .ofFlags [.ro, .ii]

/-- F2 `{CE}` (R90). -/
def fetch2 : ControlWord := .ofFlags [.ce]

/-- The fetch words in order, the same for every opcode (R90). -/
def fetchWords : List ControlWord := [fetch0, fetch1, fetch2]

/-- `JMP_LEN`, the number of JMP's microcode words, at its default (R7). DESIGN CHOICE of the spec (D8;
notes/assumptions/6.md): the source gives no length. Unsafe for pulse counts only. -/
def Config.jmpLen : Nat := 1

/-- The words of each instruction after the fetch (R80). DEDUCED by the spec from each instruction's effect and length (R81,
decision D7; notes/assumptions/9.md). A `Config.jmpLen` above 1 repeats `{IO, J}`, which changes no register value. -/
def microcode : Mnemonic → List ControlWord
  | .nop => []
  | .lda => [.ofFlags [.io, .mi], .ofFlags [.ro, .ai]]
  | .add => [.ofFlags [.io, .mi], .ofFlags [.ro, .bi], .ofFlags [.eo, .ai]]
  | .jmp => List.replicate Config.jmpLen (.ofFlags [.io, .j])
  | .out => [.ofFlags [.ao, .oi]]
  | .halt => [.ofFlags [.hlt]]

/-- The ROM under an opcode map: every opcode the map does not assign has the empty list (R80). -/
def romFor (opc : Mnemonic → Opcode) (op : Opcode) : List ControlWord :=
  match mnemonicOf opc op with
  | some m => microcode m
  | none => []

/-- `ROM(opc)`, "a pure function from a 4-bit opcode to an ordered list of control words" (R79). -/
def rom (op : Opcode) : List ControlWord := romFor Config.opc op

/-- The pulses an instruction with this opcode takes: `3 + length(ROM(opc))` (R89). -/
def pulseCount (op : Opcode) : Nat := Config.fetchLen + (rom op).length

end Sys2Proof
end

