-- ==== Sys2Proof/Machine/State.lean ====
section
/-!
DEFINITION. The state of the block, all of it (spec/10_state.md R12, R13, R25, R26, R28), the reasons a step can stop, and
the state after creation with no image (R29; spec/70_reset_and_hazards.md R120).
-/

namespace Sys2Proof.Machine

/-- Memory as (address, cell) pairs: addresses strictly rising, no entry equal to what an unlisted address reads as. -/
abbrev Memory := List Host.Cell

/-- The sequencer step, hidden state: which control word the next pulse applies (R26). -/
inductive SeqStep
  /-- The next word is fetch word `Fi`. -/
  | fetch (i : Fin Config.fetchLen)
  /-- The next word is word `k` of the microcode of the latched opcode `opc`. -/
  | exec (opc : Opcode) (k : Nat)
deriving DecidableEq, Repr

/-- `Machine` (R12): the register file (R13), the memory (R28), the halted status (R25) and the sequencer step (R26). -/
structure State where
  /-- Program counter (R16). -/
  pc : Nib
  /-- Memory-address latch (R17). -/
  addr : Nib
  /-- Instruction register: opcode 7:4, operand 3:0 (R18). -/
  ir : Byte
  /-- General register A (R15). -/
  a : Byte
  /-- General register B (R15). -/
  b : Byte
  /-- The shared bus; `none` is the spec's `undef` (R21). -/
  bus : Option Byte
  /-- Output latch (R19). -/
  out : Byte
  /-- The 16 cells (R28). -/
  mem : Memory
  /-- Halted status (R25). -/
  halted : Bool
  /-- Sequencer step, the spec's `step` (R26). -/
  seqStep : SeqStep
deriving DecidableEq, Repr

/-- The reasons the block stops with a fault: none. "Fault: none. No input or state makes the block fault." (R108, R107).
The type has no constructor, so that no meaning can fault. -/
inductive Fault
deriving DecidableEq, Repr

/-- The outcomes of the model that are no behaviour of the hardware (R9 "refuse", R108). -/
inductive Refusal
  /-- Raised by exec's arm of an instruction that has no meaning yet; no arm uses it. Safe: the model stops. -/
  | notModelled (mnemonic : String)
  /-- Raised by `applyWord` for a control word that is not well-formed (R61, decision D13). No fetch word and no word of the
  ROM is one. Safe: the model stops where the spec gives no meaning. -/
  | illFormedWord (cw : ControlWord)
  /-- Raised by an input handler or J that would read the bus while it is `undef` (R22). Never reached behind the check of
  R61. Safe: the model stops where the spec gives no meaning. -/
  | busUndefined
  /-- Raised by `pulse` and `step` at a sequencer step that R26 does not give: `Exec(opc, k)` with `k` not below the length
  of `ROM(opc)`. No run reaches one. Safe: the model stops where the spec gives no state. -/
  | noSuchWord (position : SeqStep)
deriving DecidableEq, Repr

/-- The machine right after creation with the default image, every cell 0 (R29, R120). -/
def State.reset : State where
  pc := 0
  addr := 0
  ir := 0
  a := 0
  b := 0
  bus := none
  out := 0
  mem := []
  halted := false
  seqStep := .fetch 0

end Sys2Proof.Machine
end

