-- ==== Sys2Proof/Machine/Ops.lean ====
section
/-!
DEFINITION. The named operations over memory and registers (spec/20_memory.md R31 to R34; spec/10_state.md R14), the
sequencing of operations that may refuse, and creation (spec/70_reset_and_hazards.md R120). The block has no exception entry and
no return from one (spec/60_exceptions.md R107, R111, R112), so there is no such operation; `State.halt` is the one terminal event (R110).
-/

namespace Sys2Proof.Machine

/-- What an operation answers: a next state, a fault or a refusal. -/
abbrev Answer := Host.Outcome State Fault Refusal

/-- Go on with the next state, or keep the stop. -/
def andThen {α β : Type} (o : Host.Outcome α Fault Refusal) (f : α → Host.Outcome β Fault Refusal) :
    Host.Outcome β Fault Refusal :=
  match o with
  | .next s => f s
  | .fault r => .fault r
  | .refused r => .refused r

/-- What a cell that is not listed holds: 0, the default image's zero fill (R120, R29). -/
def unlistedCell : Byte := 0

/-- The cell at address `n`. -/
def Memory.lookup : Memory → Nat → Byte
  | [], _ => unlistedCell
  | (k, v) :: rest, n => if k = n then v else Memory.lookup rest n

/-- Put `v` into the cell at address `n`, keeping the canonical form. -/
def Memory.store : Memory → Nat → Byte → Memory
  | [], n, v => if v = unlistedCell then [] else [(n, v)]
  | (k, w) :: rest, n, v =>
    if n < k then if v = unlistedCell then (k, w) :: rest else (n, v) :: (k, w) :: rest
    else if n = k then if v = unlistedCell then rest else (n, v) :: rest
    else (k, w) :: Memory.store rest n v

/-- Canonical from address `lo` on: addresses strictly rising from `lo`, below 16, and no cell that holds what an unlisted
cell holds. -/
def Memory.wfFrom : Nat → Memory → Bool
  | _, [] => true
  | lo, (k, v) :: rest =>
    decide (lo ≤ k) && decide (k < Config.memCells) && decide (v ≠ unlistedCell) && Memory.wfFrom (k + 1) rest

/-- The canonical form of the memory: 16 cells at addresses 0 to 15 (R28, R38). -/
def Memory.wf (m : Memory) : Bool := Memory.wfFrom 0 m

/-- `MemRead(n, 1)`: the cell at `n`, no side effect (R32). -/
def memRead (m : Memory) (n : Nib) : Byte := Memory.lookup m n.toNat

/-- `MemWrite(n, 1, v)`: the cell at `n` becomes `v`, no other cell changes (R33). -/
def memWrite (m : Memory) (n : Nib) (v : Byte) : Memory := Memory.store m n.toNat v

/-- The memory that holds an image (R120). -/
def Memory.ofImage (img : Fin Config.memCells → Byte) : Memory :=
  (List.finRange Config.memCells).foldl (fun m i => Memory.store m i.val (img i)) []

/-- Write `pc`. -/
def State.setPc (s : State) (v : Nib) : State := { s with pc := v }

/-- Write `addr`. -/
def State.setAddr (s : State) (v : Nib) : State := { s with addr := v }

/-- Write `ir`. -/
def State.setIr (s : State) (v : Byte) : State := { s with ir := v }

/-- Write `a`. -/
def State.setA (s : State) (v : Byte) : State := { s with a := v }

/-- Write `b`. -/
def State.setB (s : State) (v : Byte) : State := { s with b := v }

/-- Write the bus; `none` makes it `undef` (R21). -/
def State.setBus (s : State) (v : Option Byte) : State := { s with bus := v }

/-- Write `out`. -/
def State.setOut (s : State) (v : Byte) : State := { s with out := v }

/-- Replace the memory. -/
def State.setMem (s : State) (m : Memory) : State := { s with mem := m }

/-- Enter the terminal halted state (R25, R75). -/
def State.halt (s : State) : State := { s with halted := true }

/-- Move the sequencer (R26). -/
def State.setSeqStep (s : State) (p : SeqStep) : State := { s with seqStep := p }

/-- `new(img)`: creation, the block's only reset; it cannot fail (R120). -/
def State.new (img : Fin Config.memCells → Byte) : State := State.reset.setMem (Memory.ofImage img)

end Sys2Proof.Machine
end

