-- ==== Sys2Proof/Machine/Operands.lean ====
section
/-!
DEFINITION. The width conversions (spec/00_scope.md R8), the one operand form (spec/30_encoding.md R49) and the ALU
(spec/40_control_flag_handlers.md R68).
-/

namespace Sys2Proof.Machine

/-- `zext_8(n)`, of an address or an operand: zero bits above its own (R8). -/
def zext8 {w : Nat} (n : BitVec w) : Byte := n.setWidth Config.dataW

/-- `trunc_4(v)`: `v[3:0]` (R8). -/
def trunc4 (v : Byte) : Nib := v.extractLsb' 0 Config.addrW

/-- The operand nibble as it reaches the bus: `ir & 0x0F`, zero-extended, never sign-extended, scaled or shifted (R49, R64). -/
def State.operandByte (s : State) : Byte := zext8 (operandField s.ir)

/-- The opcode nibble the decoder reads, `ir[7:4]` (R18, R92). -/
def State.opcodeNibble (s : State) : Opcode := opcodeField s.ir

/-- `Alu(a, b, su)`: unsigned 8-bit add or subtract, modulo 256; no carry, borrow, zero, sign or overflow (R68). -/
def alu (a b : Byte) (su : Bool) : Byte := if su then a - b else a + b

end Sys2Proof.Machine
end

