-- ==== Sys2Proof/Machine/Flags.lean ====
section
/-!
DEFINITION. The control-flag handlers, their ordered table and the control-word executor
(spec/40_control_flag_handlers.md R57 to R78). The block has no condition flags (spec/10_state.md R23): the flags of this
file are control lines.
-/

namespace Sys2Proof.Machine

/-- The effect of one control flag; the word is an argument because EO reads the word's SU flag (R67, R78). -/
abbrev Handler := ControlWord → State → Answer

/-- RO, RAM-out (R63). -/
def ramOut : Handler := fun _ s => .next (s.setBus (some (memRead s.mem s.addr)))

/-- IO, instr-reg-out (R64). -/
def instrRegOut : Handler := fun _ s => .next (s.setBus (some s.operandByte))

/-- AO, A-out (R65). -/
def aOut : Handler := fun _ s => .next (s.setBus (some s.a))

/-- CO, counter-out (R66). DESIGN CHOICE of the spec: `pc` widens with zeros (D11; notes/assumptions/10.md). -/
def counterOut : Handler := fun _ s => .next (s.setBus (some (zext8 s.pc)))

/-- EO, sum-out, with the SU flag of the same word (R67). -/
def sumOut : Handler := fun cw s => .next (s.setBus (some (alu s.a s.b cw.su)))

/-- Give a handler the bus value this word's output handler has written; an `undef` bus has no value to read (R22). -/
def withBus (f : Byte → State → State) : Handler := fun _ s =>
  match s.bus with
  | some v => .next (f v s)
  | none => .refused .busUndefined

/-- BI, B-in (R69). -/
def bIn : Handler := withBus fun v s => s.setB v

/-- OI, output-in (R70). -/
def outputIn : Handler := withBus fun v s => s.setOut v

/-- MI, address-in: masked to four bits, not an error (R71). -/
def addressIn : Handler := withBus fun v s => s.setAddr (trunc4 v)

/-- RI, RAM-in, at the `addr` the word's address-in may just have written (R72). -/
def ramIn : Handler := withBus fun v s => s.setMem (memWrite s.mem s.addr v)

/-- II, instr-reg-in (R73). -/
def instrRegIn : Handler := withBus fun v s => s.setIr v

/-- AI, A-in (R74). -/
def aIn : Handler := withBus fun v s => s.setA v

/-- HLT, halt; the handlers after it still fire (R75). -/
def haltLine : Handler := fun _ s => .next s.halt

/-- CE, counter-enable: `pc + 1` modulo 16 (R76). -/
def counterEnable : Handler := fun _ s => .next (s.setPc (s.pc + 1))

/-- J, jump: `pc` keeps the bus's low nibble (R77). DESIGN CHOICE of the spec: the truncation (D10; notes/assumptions/10.md). -/
def jump : Handler := withBus fun v s => s.setPc (trunc4 v)

/-- The output class, in the order of R58. -/
def outputHandlers : List (Flag × Handler) :=
  [(.ro, ramOut), (.io, instrRegOut), (.ao, aOut), (.co, counterOut), (.eo, sumOut)]

/-- The input class, in the order of R58. -/
def inputHandlers : List (Flag × Handler) :=
  [(.bi, bIn), (.oi, outputIn), (.mi, addressIn), (.ri, ramIn), (.ii, instrRegIn), (.ai, aIn)]

/-- The misc class, in the order of R58. -/
def miscHandlers : List (Flag × Handler) :=
  [(.hlt, haltLine), (.ce, counterEnable), (.j, jump)]

/-- The handler table: all bus outputs, then all bus inputs, then misc control (R58). The order of the classes is the source's;
inside a class it is the listing order, DESIGN CHOICE of the spec (R60, D5; notes/assumptions/7.md). SU has no handler (R57, D6). -/
def handlerTable : List (Flag × Handler) := outputHandlers ++ inputHandlers ++ miscHandlers

/-- Walk a handler table: an effect fires iff its bit is set, and each sees the writes of those before it (R58). -/
def runHandlers : List (Flag × Handler) → Handler
  | [], _, s => .next s
  | (f, h) :: rest, cw, s => if cw.has f then andThen (h cw s) (runHandlers rest cw) else runHandlers rest cw s

/-- `ApplyWord(cw)`: one cycle. The bus becomes `undef`, then the whole table is walked; a word that is not well-formed is
refused (R58, R61, R21). It does not move the sequencer. -/
def applyWord (cw : ControlWord) (s : State) : Answer :=
  if cw.wellFormed then runHandlers handlerTable cw (s.setBus none) else .refused (.illFormedWord cw)

end Sys2Proof.Machine
end

