-- ==== Sys2Proof/Machine/Interface.lean ====
section
/-!
DEFINITION. What the driver gets to see (spec/42_sequencer_and_clock.md R96, R97, R100, R106; spec/10_state.md R30).
-/

namespace Sys2Proof.Machine

/-- `Snapshot(M)`: the seven registers of the register file (R97). DESIGN CHOICE of the spec: no memory (D17;
notes/assumptions/19.md). -/
structure Snapshot where
  pc : Nib
  addr : Nib
  ir : Byte
  a : Byte
  b : Byte
  bus : Option Byte
  out : Byte
deriving DecidableEq, Repr

/-- `CycleResult`, what a pulse returns (R96, R106). -/
inductive CycleResult
  /-- The applied word and the registers after it. -/
  | applied (cw : ControlWord) (snap : Snapshot)
  /-- The distinguished result of a pulse on a halted machine, with no payload (R99, D16; notes/assumptions/19.md). -/
  | alreadyHalted
deriving DecidableEq, Repr

/-- The machine as the driver may inspect it between pulses: all but the sequencer step (R30, R106). -/
structure Inspection where
  regs : Snapshot
  mem : Memory
  halted : Bool
deriving DecidableEq, Repr

/-- The register file as it stands (R97). -/
def State.snapshot (s : State) : Snapshot :=
  { pc := s.pc, addr := s.addr, ir := s.ir, a := s.a, b := s.b, bus := s.bus, out := s.out }

/-- `isHalted(M)`: a pure query (R100). -/
def State.isHalted (s : State) : Bool := s.halted

/-- Inspect the machine between pulses (R30, R106). -/
def State.inspect (s : State) : Inspection :=
  { regs := s.snapshot, mem := s.mem, halted := s.halted }

/-- The driver's operations on a machine that exists, "and no others" (R106); creation is `State.new`. -/
inductive Request
  | pulse | isHalted | inspect
deriving DecidableEq, Repr

/-- What the block answers (R106). -/
inductive Response
  | cycle (r : CycleResult)
  | halted (h : Bool)
  | machine (v : Inspection)
deriving DecidableEq, Repr

end Sys2Proof.Machine
end

