-- ==== Sys2Proof/Machine/Sequencer.lean ====
section
/-!
DEFINITION. The fetch-decode-execute sequencer, one pulse, and the shared operations the instructions' meanings and `step`
are built from (spec/42_sequencer_and_clock.md R90 to R106).
-/

namespace Sys2Proof.Machine

/-- R26: `Fetch(i)`, or `Exec(opc, k)` with `k` below the length of `ROM(opc)`. -/
def SeqStep.legal : SeqStep → Bool
  | .fetch _ => true
  | .exec opc k => decide (k < (rom opc).length)

/-- `Word(step)`: the control word of a sequencer step (R94); `none` for a step R26 does not give. -/
def SeqStep.word : SeqStep → Option ControlWord
  | .fetch i => fetchWords[i.val]?
  | .exec opc k => (rom opc)[k]?

/-- The step after word `k - 1` of an opcode's list: word `k`, or the next instruction's fetch when the list is used up (R93). -/
def SeqStep.execFrom (opc : Opcode) (k : Nat) : SeqStep :=
  if k < (rom opc).length then .exec opc k else .fetch 0

/-- `Next(step, M')`: the step that follows; decode latches the opcode nibble right after F2 (R92, R94). -/
def SeqStep.next (p : SeqStep) (after : State) : SeqStep :=
  match p with
  | .fetch 0 => .fetch 1
  | .fetch 1 => .fetch 2
  | .fetch 2 => SeqStep.execFrom after.opcodeNibble 0
  | .exec opc k => SeqStep.execFrom opc (k + 1)

/-- `Pulse(M)`: one control word, applied and reported, or `AlreadyHalted` (R96, R99). -/
def pulse (s : State) : Host.Outcome (State × CycleResult) Fault Refusal :=
  if s.halted then .next (s, .alreadyHalted)
  else
    match s.seqStep.word with
    | none => .refused (.noSuchWord s.seqStep)
    | some cw =>
      andThen (applyWord cw s) fun t =>
        let t' := t.setSeqStep (s.seqStep.next t)
        .next (t', .applied cw t'.snapshot)

/-- The state after `n` pulses (R95: one word per accepted pulse). -/
def pulses : Nat → State → Answer
  | 0, s => .next s
  | n + 1, s => andThen (pulse s) fun r => pulses n r.1

/-- Answer one request of the driver (R102, R106): only a pulse can change the machine. -/
def respond (q : Request) (s : State) : Host.Outcome (State × Response) Fault Refusal :=
  match q with
  | .pulse => andThen (pulse s) fun r => .next (r.1, .cycle r.2)
  | .isHalted => .next (s, .halted s.isHalted)
  | .inspect => .next (s, .machine s.inspect)

/-- Answer the driver's requests in the order it makes them (R102, R103). -/
def serve : List Request → State → Host.Outcome (State × List Response) Fault Refusal
  | [], s => .next (s, [])
  | q :: rest, s =>
    andThen (respond q s) fun r => andThen (serve rest r.1) fun r' => .next (r'.1, r.2 :: r'.2)

/-- Apply control words in order; after a word with HLT the rest is never applied (R95, R98). -/
def runWords : List ControlWord → State → Answer
  | [], s => .next s
  | cw :: rest, s => if s.halted then .next s else andThen (applyWord cw s) (runWords rest)

/-- Apply the words that are left of an instruction, which leaves the sequencer at the next fetch (R93). -/
def finishWords (words : List ControlWord) (s : State) : Answer :=
  andThen (runWords words s) fun t => .next (t.setSeqStep (.fetch 0))

/-- The execute phase of instruction `i` with the words given: `ir` holds `i`'s cell, as F1 left it, since the operand
"travels inside `ir`" (R49, R93; notes/assumptions/14.md). A halted machine applies no word (R99). -/
def executeWords (i : Instr) (words : List ControlWord) (s : State) : Answer :=
  if s.halted then .next s else finishWords words (s.setIr (encodeCell i))

end Sys2Proof.Machine
end

