-- ==== Sys2Proof/Machine/Arithmetic.lean ====
section
/-!
DEFINITION. The meaning of the one arithmetic instruction, ADD (spec/41_microcode_rom.md R84).
-/

namespace Sys2Proof.Machine

/-- ADD n: `{IO, MI}`, `{RO, BI}`, `{EO, AI}` (R84). -/
def execAdd (n : Operand) (s : State) : Answer := executeWords (.add n) (microcode .add) s

end Sys2Proof.Machine
end

