-- ==== Sys2Proof/Machine/ControlFlow.lean ====
section
/-!
DEFINITION. The meanings of NOP, JMP, HALT and the ten unassigned opcodes (spec/41_microcode_rom.md R82, R85, R87, R88).
-/

namespace Sys2Proof.Machine

/-- NOP: no execute word (R82). -/
def execNop (operand : Operand) (s : State) : Answer := executeWords (.nop operand) (microcode .nop) s

/-- JMP n: `{IO, J}`, after the fetch's increment (R85, R126). -/
def execJmp (n : Operand) (s : State) : Answer := executeWords (.jmp n) (microcode .jmp) s

/-- HALT: `{HLT}`; saves nothing and changes no register (R87, R111). -/
def execHalt (operand : Operand) (s : State) : Answer := executeWords (.halt operand) (microcode .halt) s

/-- The first unassigned opcode, 0x3 by default: "an opcode absent from the table behaves as NOP", no execute word (R88, R51). -/
def execUnassigned3 (operand : Operand) (s : State) : Answer :=
  executeWords (.unassigned3 operand) (rom (unassignedOpcode Config.opc 0)) s

/-- The second unassigned opcode, 0x4 by default: "an opcode absent from the table behaves as NOP", no execute word (R88, R51). -/
def execUnassigned4 (operand : Operand) (s : State) : Answer :=
  executeWords (.unassigned4 operand) (rom (unassignedOpcode Config.opc 1)) s

/-- The third unassigned opcode, 0x5 by default: "an opcode absent from the table behaves as NOP", no execute word (R88, R51). -/
def execUnassigned5 (operand : Operand) (s : State) : Answer :=
  executeWords (.unassigned5 operand) (rom (unassignedOpcode Config.opc 2)) s

/-- The fourth unassigned opcode, 0x7 by default: "an opcode absent from the table behaves as NOP", no execute word (R88, R51). -/
def execUnassigned7 (operand : Operand) (s : State) : Answer :=
  executeWords (.unassigned7 operand) (rom (unassignedOpcode Config.opc 3)) s

/-- The fifth unassigned opcode, 0x8 by default: "an opcode absent from the table behaves as NOP", no execute word (R88, R51). -/
def execUnassigned8 (operand : Operand) (s : State) : Answer :=
  executeWords (.unassigned8 operand) (rom (unassignedOpcode Config.opc 4)) s

/-- The sixth unassigned opcode, 0x9 by default: "an opcode absent from the table behaves as NOP", no execute word (R88, R51). -/
def execUnassigned9 (operand : Operand) (s : State) : Answer :=
  executeWords (.unassigned9 operand) (rom (unassignedOpcode Config.opc 5)) s

/-- The seventh unassigned opcode, 0xA by default: "an opcode absent from the table behaves as NOP", no execute word (R88, R51). -/
def execUnassignedA (operand : Operand) (s : State) : Answer :=
  executeWords (.unassignedA operand) (rom (unassignedOpcode Config.opc 6)) s

/-- The eighth unassigned opcode, 0xB by default: "an opcode absent from the table behaves as NOP", no execute word (R88, R51). -/
def execUnassignedB (operand : Operand) (s : State) : Answer :=
  executeWords (.unassignedB operand) (rom (unassignedOpcode Config.opc 7)) s

/-- The ninth unassigned opcode, 0xC by default: "an opcode absent from the table behaves as NOP", no execute word (R88, R51). -/
def execUnassignedC (operand : Operand) (s : State) : Answer :=
  executeWords (.unassignedC operand) (rom (unassignedOpcode Config.opc 8)) s

/-- The tenth unassigned opcode, 0xD by default: "an opcode absent from the table behaves as NOP", no execute word (R88, R51). -/
def execUnassignedD (operand : Operand) (s : State) : Answer :=
  executeWords (.unassignedD operand) (rom (unassignedOpcode Config.opc 9)) s

end Sys2Proof.Machine
end

