-- ==== Sys2Proof/Machine/Transfer.lean ====
section
/-!
DEFINITION. The meanings of the instructions that move data: LDA and OUT (spec/41_microcode_rom.md R83, R86). A meaning is the
instruction's execute phase; the fetch before it is `step`'s (R90).
-/

namespace Sys2Proof.Machine

/-- LDA n: `{IO, MI}`, `{RO, AI}` (R83). -/
def execLda (n : Operand) (s : State) : Answer := executeWords (.lda n) (microcode .lda) s

/-- OUT: `{AO, OI}` (R86). -/
def execOut (operand : Operand) (s : State) : Answer := executeWords (.out operand) (microcode .out) s

end Sys2Proof.Machine
end

