-- ==== Sys2Proof/Machine/Dispatch.lean ====
section
/-!
DEFINITION. One arm per instruction (spec/41_microcode_rom.md R82 to R88).
-/

namespace Sys2Proof.Machine

/-- The execute phase of an instruction. -/
def exec (i : Instr) (s : State) : Host.Outcome State Fault Refusal :=
  match i with
  | .nop n => Sys2Proof.Machine.execNop n s
  | .lda n => Sys2Proof.Machine.execLda n s
  | .add n => Sys2Proof.Machine.execAdd n s
  | .unassigned3 n => Sys2Proof.Machine.execUnassigned3 n s
  | .unassigned4 n => Sys2Proof.Machine.execUnassigned4 n s
  | .unassigned5 n => Sys2Proof.Machine.execUnassigned5 n s
  | .jmp n => Sys2Proof.Machine.execJmp n s
  | .unassigned7 n => Sys2Proof.Machine.execUnassigned7 n s
  | .unassigned8 n => Sys2Proof.Machine.execUnassigned8 n s
  | .unassigned9 n => Sys2Proof.Machine.execUnassigned9 n s
  | .unassignedA n => Sys2Proof.Machine.execUnassignedA n s
  | .unassignedB n => Sys2Proof.Machine.execUnassignedB n s
  | .unassignedC n => Sys2Proof.Machine.execUnassignedC n s
  | .unassignedD n => Sys2Proof.Machine.execUnassignedD n s
  | .out n => Sys2Proof.Machine.execOut n s
  | .halt n => Sys2Proof.Machine.execHalt n s

end Sys2Proof.Machine
end

