-- ==== Sys2Proof/Machine/Step.lean ====
section
/-!
DEFINITION. The step of the model: one whole instruction, from the sequencer's position to the next instruction's fetch
(spec/42_sequencer_and_clock.md R90 to R95). It is made of exactly the control words that the pulses of R96 apply; one pulse is
`pulse` (notes/assumptions/1.md).
-/

namespace Sys2Proof.Machine

/-- Apply the fetch words that are left, decode `ir` and run the instruction; in the middle of an execute phase, finish the
instruction in progress (R93). A halted machine does not change (R99). -/
def step (s : State) : Host.Outcome State Fault Refusal :=
  if s.halted then .next s
  else
    match s.seqStep with
    | .fetch i => andThen (runWords (fetchWords.drop i.val) s) fun t => exec (decodeCell t.ir) t
    | .exec opc k =>
      if (SeqStep.exec opc k).legal then finishWords ((rom opc).drop k) s else .refused (.noSuchWord s.seqStep)

/-- `s` with the cell `w` where the next step fetches its instruction: in the cell `pc` names, with the sequencer at the
start of a fetch and the machine not halted, so that the next step runs exactly it (notes/assumptions/2.md). -/
def State.withFetchWord (s : State) (nbits w : Nat) : State :=
  { s with mem := memWrite s.mem s.pc (BitVec.ofNat Config.dataW (w % 2 ^ nbits)), halted := false, seqStep := .fetch 0 }

end Sys2Proof.Machine
end

