-- ==== Sys2Proof/Machine/Image.lean ====
section
/-!
DEFINITION. The image lines of the excluded loader, as the cells they stand for (spec/30_encoding.md R55). Text and its
parsing are out of scope (spec/00_scope.md R5).
-/

namespace Sys2Proof.Machine

/-- One line of an image, already parsed (R55). -/
inductive ImageLine
  /-- `<address>: <MNEMONIC> [<operand>]`. -/
  | mnemonic (address : Nib) (m : Mnemonic) (operand : Option Operand)
  /-- `<address>: <value>`, a bare literal. -/
  | literal (address : Nib) (value : Byte)
deriving DecidableEq, Repr

/-- The cell a line names. -/
def ImageLine.address : ImageLine → Nib
  | .mnemonic address _ _ => address
  | .literal address _ => address

/-- What a line puts into its cell: `(OPC(m) << 4) | n`, an omitted operand being 0, or the literal (R55). -/
def ImageLine.cell : ImageLine → Byte
  | .mnemonic _ m operand => cellOf (Config.opc m) (operand.getD 0)
  | .literal _ value => value

/-- The image of a list of lines; "a cell no line names holds 0" (R55). DESIGN CHOICE: lines that name one cell twice give no
image, since the loader's behaviour there is not described (notes/assumptions/22.md). Safe. -/
def imageOf (lines : List ImageLine) : Option (Fin Config.memCells → Byte) :=
  if (lines.map ImageLine.address).Nodup then
    some fun i => ((lines.find? fun l => l.address.toNat == i.val).map ImageLine.cell).getD 0
  else none

end Sys2Proof.Machine
end

