-- ==== Sys2Proof/Safety.lean ====
section
/-!
DEFINITION. What the model's claims call a safe state, and what the sequencer's position says about the registers in the
middle of an instruction (spec/10_state.md R26, R28; spec/42_sequencer_and_clock.md R91 to R94).
-/

namespace Sys2Proof.Machine

/-- A state the spec gives: the memory is canonical (16 cells, R28) and the sequencer step is one of R26. In such a state
nothing refuses (R22, R108). -/
def State.Safe (s : State) : Prop := s.mem.wf = true ∧ s.seqStep.legal = true

/-- The sequencer is between two instructions and the machine runs: the next pulse applies F0 (R90, R93). -/
def State.AtBoundary (s : State) : Prop := s.halted = false ∧ s.seqStep = .fetch 0

/-- What the words applied so far have left in the registers, by the position in the instruction (R91, R92, R83, R84). A
halted machine stands at `Fetch(0)`, since `{HLT}` is the last word of its list (R80, R94). -/
def State.InFlight (s : State) : Prop :=
  (s.halted = true → s.seqStep = .fetch 0) ∧
  match s.seqStep with
  | .fetch 0 => True
  | .fetch 1 => s.addr = s.pc ∧ s.bus = some (zext8 s.pc)
  | .fetch 2 => s.addr = s.pc ∧ s.ir = memRead s.mem s.addr ∧ s.bus = some s.ir
  | .exec opc k =>
    opc = s.opcodeNibble ∧ k < (rom opc).length ∧
      (k = 0 → s.pc = s.addr + 1 ∧ s.ir = memRead s.mem s.addr ∧ s.bus = none) ∧
      (k = 1 → s.addr = operandField s.ir ∧ s.bus = some s.operandByte) ∧
      (k = 2 → s.addr = operandField s.ir ∧ s.b = memRead s.mem s.addr ∧ s.bus = some s.b)

/-- The fetch's effect on a machine with `pc = p`: `addr = p`, `ir = mem[p]`, `pc = p + 1` modulo 16, the bus `undef` (R91). -/
def State.fetched (s : State) : State :=
  { s with addr := s.pc, ir := memRead s.mem s.pc, pc := s.pc + 1, bus := none }

end Sys2Proof.Machine
end

