-- ==== Sys2Proof/Certificates/Slice0/Obligations.lean ====
section
/-!
DEFINITION. The statements for the provers, from the numbered rules of spec/. The machine's opcode map is `Config.opc`
(decision D2), and a statement that rests on its default numbers says so; the ROM's words are those of R80 (decision D7); the
bus is `none` where the spec says `undef` (R21, decision D12).
-/

open Sys2Proof Sys2Proof.Machine

/-! ## Encoding -/

/-- Under EVERY injective opcode map, decoding the cell of an instruction gives the instruction back, each of the 256 cells is the cell of
the instruction it decodes to (R48, R50, R51, R52), and no instruction is ill-formed. With the machine's own map, decoding an
instruction's bytes takes exactly one byte, whatever follows (R47). That an unassigned row stands for the opcode of its rank among
those the map leaves over is the model's choice (log 20). -/
def Obligations.DecodeAndEncodeAgree : Prop :=
  (∀ opc : Mnemonic → Opcode, (∀ m k, opc m = opc k → m = k) →
    (∀ i : Instr, i.wellFormedFor opc = true ∧ decodeCellFor opc (encodeCellFor opc i) = i) ∧
    ∀ cell : Byte, encodeCellFor opc (decodeCellFor opc cell) = cell) ∧
  (∀ (i : Instr) (rest : List Byte), i.wellFormed = true → decode (encode i ++ rest) = .ok (i, rest)) ∧
  ∀ cell : Byte, encode (decodeCell cell) = [cell] ∧ (decodeCell cell).wellFormed = true

/-- R48: the cell is `(opcode << 4) | operand`, the fields are bits 7:4 and 3:0, the fetch leaves the cell in `ir`, and the opcode
selects the microcode list; that the sequencer holds that opcode right after F2 is R92 (decision D14, log 11). -/
def Obligations.CellLayoutAndFetchedCell : Prop :=
  (∀ (op : Opcode) (n : Operand), cellOf op n = (op.setWidth 8 <<< 4) ||| n.setWidth 8 ∧
    opcodeField (cellOf op n) = op ∧ operandField (cellOf op n) = n) ∧
  ∀ s : State, s.AtBoundary → ∃ t, pulses 3 s = .next t ∧ t.ir = memRead s.mem s.pc ∧
    t.seqStep = if 0 < (rom (opcodeField t.ir)).length then .exec (opcodeField t.ir) 0 else .fetch 0

/-- Words written out bit by bit from R48 and R50: 0000 0111, 0001 1110, 0010 1111, 0011 0101, 0110 0011, 1101 1111, 1110 1001,
1111 0000 (the opcode numbers are decision D2, log 4). -/
def Obligations.HandWrittenCellsDecode : Prop :=
  decodeTableWord 8 0b00000111 = some (.nop 7) ∧ decodeTableWord 8 0b00011110 = some (.lda 14) ∧
  decodeTableWord 8 0b00101111 = some (.add 15) ∧ decodeTableWord 8 0b00110101 = some (.unassigned3 5) ∧
  decodeTableWord 8 0b01100011 = some (.jmp 3) ∧ decodeTableWord 8 0b11011111 = some (.unassignedD 15) ∧
  decodeTableWord 8 0b11101001 = some (.out 9) ∧ decodeTableWord 8 0b11110000 = some (.halt 0)

/-- Under EVERY injective opcode map the ROM gives a mnemonic's opcode its words, and an opcode the map does not assign the empty
list (R50, R51, R80). -/
def Obligations.RomUnderEveryOpcodeMap : Prop :=
  ∀ opc : Mnemonic → Opcode, (∀ m k, opc m = opc k → m = k) →
    (∀ m, romFor opc (opc m) = microcode m) ∧ ∀ op, (∀ m, opc m ≠ op) → romFor opc op = []

/-- The ROM's words (R80, decision D7, log 9): each list, each word well-formed, none asserting RI, SU or II, none with more than one
output flag. -/
def Obligations.RomWordsAreTheTable : Prop :=
  microcode .nop = [] ∧
  microcode .lda = [.ofFlags [.io, .mi], .ofFlags [.ro, .ai]] ∧
  microcode .add = [.ofFlags [.io, .mi], .ofFlags [.ro, .bi], .ofFlags [.eo, .ai]] ∧
  microcode .jmp = [.ofFlags [.io, .j]] ∧
  microcode .out = [.ofFlags [.ao, .oi]] ∧
  microcode .halt = [.ofFlags [.hlt]] ∧
  ∀ m, ∀ cw ∈ microcode m, cw.wellFormed = true ∧ cw.ri = false ∧ cw.su = false ∧ cw.ii = false ∧ cw.outputs ≤ 1

/-- A control word and its 15-bit number carry each other, and bit `Config.cwBit f` is flag `f` (R53, R54; the bit numbers are
decision D3, log 5). -/
def Obligations.ControlWordNumberRoundTrip : Prop :=
  (∀ cw : ControlWord, ControlWord.ofBits cw.toBits = cw) ∧ (∀ v : BitVec 15, (ControlWord.ofBits v).toBits = v) ∧
  ∀ (cw : ControlWord) (f : Flag), cw.toBits.getLsbD (Config.cwBit f) = cw.has f

/-- Lines that name different cells make an image: every line's cell in the cell it names, 0 where no line names the cell. A mnemonic line
stands for its cell and a bare literal is the whole cell (R55, decision D25). Lines that name a cell twice make no image: the
model's choice (log 22). -/
def Obligations.ImageHoldsItsLines : Prop :=
  (∀ lines : List ImageLine, (lines.map ImageLine.address).Nodup →
    ∃ img : Fin 16 → Byte, imageOf lines = some img ∧
      (∀ l ∈ lines, ∀ i : Fin 16, i.val = l.address.toNat → img i = l.cell) ∧
      ∀ i : Fin 16, (∀ l ∈ lines, l.address.toNat ≠ i.val) → img i = 0) ∧
  (∀ (address : Nib) (m : Mnemonic) (n : Operand),
    (ImageLine.mnemonic address m (some n)).cell = (Config.opc m).setWidth 8 <<< 4 ||| n.setWidth 8 ∧
    (ImageLine.mnemonic address m none).cell = (Config.opc m).setWidth 8 <<< 4) ∧
  (∀ (address : Nib) (v : Byte), (ImageLine.literal address v).cell = v) ∧
  ∀ lines : List ImageLine, ¬ (lines.map ImageLine.address).Nodup → imageOf lines = none

/-! ## The control-word executor -/

/-- R62: a well-formed word always completes, whatever the state holds. -/
def Obligations.WellFormedWordsComplete : Prop :=
  ∀ (cw : ControlWord) (s : State), cw.wellFormed = true → ∃ t, applyWord cw s = .next t

/-- R61 by its two conditions, counted over the flag classes of R57: `applyWord` answers a next state exactly when both hold, and
refuses the word by name otherwise (the refusal is the spec's decision D13, log 8; that SU is in no counted class is D6, log 21). -/
def Obligations.ExactlyIllFormedWordsRefused : Prop :=
  ∀ (cw : ControlWord) (s : State),
    let outs := (Flag.all.filter fun f => f.kind == .output && cw.has f).length
    let reads := Flag.all.any fun f => (f.kind == .input || f == .j) && cw.has f
    ((∃ t, applyWord cw s = .next t) ↔ outs ≤ 1 ∧ (reads = true → outs = 1)) ∧
    (¬ (outs ≤ 1 ∧ (reads = true → outs = 1)) → applyWord cw s = .refused (.illFormedWord cw))

/-- R59: every output handler reads the registers as they stood at the start of the cycle, and every input handler and J read the
bus value that this cycle's output handler wrote. Where the order inside a class (decision D5, log 7) would show, this statement
takes either order: with MI in the word, RI may use the old or the new `addr`; with CE, the increment may come before or after J
(`MemoryOnlyThroughRamHandlers` and `MiscHandlersAndTheirOrder` say which). Where a 4-bit register meets the bus only the
values that need no width conversion are claimed (bus values below 16 for J). -/
def Obligations.OutputsRunBeforeInputs : Prop :=
  ∀ (cw : ControlWord) (s : State), cw.wellFormed = true → ∃ t, applyWord cw s = .next t ∧
    (cw.ro = true → t.bus = some (memRead s.mem s.addr)) ∧
    (cw.io = true → t.bus = some (s.ir &&& 0x0F)) ∧
    (cw.ao = true → t.bus = some s.a) ∧
    (cw.co = true → ∃ v, t.bus = some v ∧ v.toNat = s.pc.toNat) ∧
    (cw.eo = true → t.bus = some (alu s.a s.b cw.su)) ∧
    (cw.bi = true → t.bus = some t.b) ∧
    (cw.oi = true → t.bus = some t.out) ∧
    (cw.mi = true → ∃ v, t.bus = some v ∧ t.addr.toNat = v.toNat % 16) ∧
    (cw.ii = true → t.bus = some t.ir) ∧
    (cw.ai = true → t.bus = some t.a) ∧
    (cw.ri = true → ∃ v, t.bus = some v ∧ (t.mem = memWrite s.mem s.addr v ∨ t.mem = memWrite s.mem t.addr v)) ∧
    (cw.j = true → ∃ v, t.bus = some v ∧
      (v.toNat < 16 → t.pc.toNat = v.toNat ∨ cw.ce = true ∧ t.pc.toNat = (v.toNat + 1) % 16))

/-- The misc class and its order (R75, R76, R77, R60): HLT halts and the later handlers still fire; CE increments modulo 16; J after CE
loses the increment and keeps the bus's low nibble (the order inside a class is decision D5, log 7; the truncation D10, log 10). -/
def Obligations.MiscHandlersAndTheirOrder : Prop :=
  ∀ (cw : ControlWord) (s : State), cw.wellFormed = true → ∃ t, applyWord cw s = .next t ∧
    t.halted = (s.halted || cw.hlt) ∧
    (cw.j = true → ∃ v, t.bus = some v ∧ t.pc.toNat = v.toNat % 16) ∧
    (cw.j = false → cw.ce = true → t.pc.toNat = (s.pc.toNat + 1) % 16) ∧
    (cw.j = false → cw.ce = false → t.pc = s.pc)

/-- The frame of a control word (R13, R14, R33, R72): each piece of state keeps its value unless the word asserts a flag that writes it,
a word with RI changes only the cell of `addr` after the word's address-in (with MI in the word: decision D5, log 7), a word with no
output leaves the bus undefined (R21, decision D12, log 3), and no word moves the sequencer. -/
def Obligations.WordFrame : Prop :=
  ∀ (cw : ControlWord) (s : State), cw.wellFormed = true → ∃ t, applyWord cw s = .next t ∧
    (cw.ce = false → cw.j = false → t.pc = s.pc) ∧ (cw.mi = false → t.addr = s.addr) ∧
    (cw.ii = false → t.ir = s.ir) ∧ (cw.ai = false → t.a = s.a) ∧ (cw.bi = false → t.b = s.b) ∧
    (cw.oi = false → t.out = s.out) ∧ (cw.hlt = false → t.halted = s.halted) ∧ t.seqStep = s.seqStep ∧
    (cw.ri = false → t.mem = s.mem) ∧
    (∀ n : Nib, n ≠ t.addr → memRead t.mem n = memRead s.mem n) ∧
    (cw.outputs = 0 → t.bus = none)

/-- R31, R32 and R33: memory is reached only through RO and RI, one cell at a time. Without RO no other state depends on what the memory
holds, and RO puts exactly the cell of `addr` on the bus; without RI the memory keeps every cell, and RI puts the bus value into
the cell of `addr` and into no other (with MI in the word, the `addr` just written: R60, decision D5, log 7). -/
def Obligations.MemoryOnlyThroughRamHandlers : Prop :=
  (∀ (cw : ControlWord) (s t : State) (m : Memory), cw.ro = false → applyWord cw s = .next t →
    ∃ m', applyWord cw (s.setMem m) = .next (t.setMem m')) ∧
  (∀ (cw : ControlWord) (s t : State), applyWord cw s = .next t →
    (cw.ro = true → t.bus = some (memRead s.mem s.addr)) ∧ (cw.ri = false → t.mem = s.mem)) ∧
  ∀ (cw : ControlWord) (s : State), cw.wellFormed = true → s.mem.wf = true → cw.ri = true →
    ∃ t v, applyWord cw s = .next t ∧ t.bus = some v ∧ memRead t.mem t.addr = v ∧
      ∀ n : Nib, n ≠ t.addr → memRead t.mem n = memRead s.mem n

/-- R20: the bus is rewritten every cycle. A word with an output flag leaves a value on it, the word's six inputs take that value, and
nothing of an earlier cycle's bus value is left: no word, no pulse and no instruction's step depends on it. That a word with no
output leaves no value at all is decision D12 (R21, log 3); the `addr` that RI uses in a word with MI is decision D5 (log 7). -/
def Obligations.BusHoldsNothingFromEarlierCycles : Prop :=
  (∀ (cw : ControlWord) (s : State), cw.wellFormed = true → ∃ t, applyWord cw s = .next t ∧
    (t.bus.isSome = true ↔ cw.outputs = 1) ∧ (cw.bi = true → t.bus = some t.b) ∧ (cw.oi = true → t.bus = some t.out) ∧
    (cw.mi = true → ∃ v, t.bus = some v ∧ t.addr.toNat = v.toNat % 16) ∧
    (cw.ri = true → ∃ v, t.bus = some v ∧ t.mem = memWrite s.mem t.addr v) ∧
    (cw.ii = true → t.bus = some t.ir) ∧ (cw.ai = true → t.bus = some t.a)) ∧
  (∀ (cw : ControlWord) (s : State) (v : Option Byte), applyWord cw (s.setBus v) = applyWord cw s) ∧
  ∀ (s : State) (v : Option Byte), s.halted = false →
    pulse (s.setBus v) = pulse s ∧ (s.seqStep = .fetch 0 → step (s.setBus v) = step s)

/-- R24: SU selects subtraction only for the sum-out of the word that asserts it. Without EO it has no effect, and the next
sum-out without SU adds, whatever word came before. -/
def Obligations.SubtractIsNotSticky : Prop :=
  (∀ (cw : ControlWord) (s : State), cw.wellFormed = true → cw.eo = true →
    ∃ t, applyWord cw s = .next t ∧ t.bus = some (if cw.su then s.a - s.b else s.a + s.b)) ∧
  (∀ (cw : ControlWord) (s : State) (x : Bool), cw.wellFormed = true → cw.eo = false →
    applyWord { cw with su := x } s = applyWord cw s) ∧
  ∀ (cw next : ControlWord) (s t : State), applyWord cw s = .next t → next.wellFormed = true → next.eo = true →
    next.su = false → ∃ u, applyWord next t = .next u ∧ u.bus = some (t.a + t.b)

/-- R68: the ALU's one operation, modulo 256, with the corner cases the rule lists. -/
def Obligations.AluAddsAndSubtractsModulo256 : Prop :=
  (∀ a b : Byte, (alu a b false).toNat = (a.toNat + b.toNat) % 256 ∧
    (alu a b true).toNat = (a.toNat + 256 - b.toNat) % 256) ∧
  alu 0xFF 0x01 false = 0x00 ∧ alu 0x80 0x80 false = 0x00 ∧ alu 0x00 0x01 true = 0xFF ∧
  (∀ a : Byte, alu a a true = 0x00) ∧ alu 5 7 true = 0xFE

/-- R17: the address latch keeps the bus's low nibble (masking, not error), only address-in writes it, and it selects the cell that
RAM-out reads and RAM-in writes. (A word that asserts both MI and RI is in `MemoryOnlyThroughRamHandlers`, since the order
of the two is decision D5.) -/
def Obligations.AddressLatch : Prop :=
  ∀ (cw : ControlWord) (s : State), cw.wellFormed = true → s.mem.wf = true → ∃ t, applyWord cw s = .next t ∧
    (cw.mi = true → ∃ v, t.bus = some v ∧ t.addr.setWidth 8 = v &&& 0x0F) ∧
    (cw.mi = false → t.addr = s.addr) ∧
    (cw.ro = true → t.bus = some (memRead s.mem s.addr)) ∧
    (cw.ri = true → cw.mi = false → t.bus = some (memRead t.mem s.addr) ∧
      ∀ n : Nib, n ≠ s.addr → memRead t.mem n = memRead s.mem n)

/-- R18: `ir` takes the whole fetched cell at F1; IO puts only the operand nibble on the bus; the opcode nibble is read by the decoder
alone: no word's effect depends on it (but that `ir` keeps it), and right after F2 the decoder reads it (R92; the moment of the
latch is decision D14, log 11). -/
def Obligations.InstructionRegister : Prop :=
  (∀ s : State, s.halted = false → s.seqStep = .fetch 1 →
    ∃ r, pulse s = .next r ∧ r.1.ir = memRead s.mem s.addr) ∧
  (∀ (cw : ControlWord) (s : State), cw.wellFormed = true → cw.io = true →
    ∃ t, applyWord cw s = .next t ∧ t.bus = some (s.ir &&& 0x0F)) ∧
  (∀ (cw : ControlWord) (s t : State) (op : Opcode), applyWord cw s = .next t →
    applyWord cw (s.setIr (cellOf op (operandField s.ir))) =
      .next (if cw.ii then t else t.setIr (cellOf op (operandField s.ir)))) ∧
  ∀ s : State, s.halted = false → s.seqStep = .fetch 2 →
    ∃ r, pulse s = .next r ∧ r.1.seqStep =
      if (rom (s.ir.extractLsb' 4 4)).length > 0 then .exec (s.ir.extractLsb' 4 4) 0 else .fetch 0

/-- R19: only output-in writes `out`, with the bus value; nothing inside the block reads it, so changing it changes no other state of
any word, pulse or step, nor which word a pulse reports; the driver sees it in the snapshot. After the pulse or step `out` is
what it was before, or what it is without the change. -/
def Obligations.OutputLatchIsReadByNothing : Prop :=
  (∀ (cw : ControlWord) (s : State), cw.wellFormed = true → ∃ t, applyWord cw s = .next t ∧
    (cw.oi = true → t.bus = some t.out) ∧ (cw.oi = false → t.out = s.out)) ∧
  (∀ (cw : ControlWord) (s t : State) (v : Byte), applyWord cw s = .next t →
    applyWord cw (s.setOut v) = .next (if cw.oi then t else t.setOut v)) ∧
  (∀ (s t : State) (r : CycleResult) (v : Byte), pulse s = .next (t, r) →
    ∃ (w : Byte) (r' : CycleResult), (w = v ∨ w = t.out) ∧ pulse (s.setOut v) = .next (t.setOut w, r') ∧
      (r = .alreadyHalted → r' = .alreadyHalted) ∧
      ∀ cw snap, r = .applied cw snap → r' = .applied cw (t.setOut w).snapshot) ∧
  (∀ (s t : State) (v : Byte), step s = .next t →
    ∃ w : Byte, (w = v ∨ w = t.out) ∧ step (s.setOut v) = .next (t.setOut w)) ∧
  ∀ s : State, s.snapshot.out = s.out

/-- R15: no instruction reads `b` but ADD, which writes it first: what `b` holds before an instruction changes nothing of what the
instruction leaves, but for `b` itself where the instruction keeps it. After a running ADD `b` is the same whatever it held;
every other instruction, and a halted machine, keeps what it held (the ROM's words are decision D7, log 9). -/
def Obligations.RegisterBNeverInfluencesAnInstruction : Prop :=
  (∀ (i : Instr) (s t : State) (v : Byte), exec i s = .next t →
    ∃ w : Byte, exec i (s.setB v) = .next (t.setB w) ∧
      (s.halted = false → ∀ n, i = .add n → w = t.b) ∧ ((s.halted = true ∨ ∀ n, i ≠ .add n) → w = v)) ∧
  ∀ (s t : State) (v : Byte), s.AtBoundary → step s = .next t →
    ∃ w : Byte, step (s.setB v) = .next (t.setB w) ∧
      (opcodeField (memRead s.mem s.pc) = Config.opc .add → w = t.b) ∧
      (opcodeField (memRead s.mem s.pc) ≠ Config.opc .add → w = v)

/-! ## Creation -/

/-- R120: the machine `new(img)` creates holds the image and nothing else but zeros, an undefined bus, not halted, at `Fetch(0)`; the
memory is canonical (halted, the step and the bus are the spec's decisions D9, D14, D12). -/
def Obligations.CreationFromAnImage : Prop :=
  ∀ img : Fin 16 → Byte,
    let s := State.new img
    s.pc = 0 ∧ s.addr = 0 ∧ s.ir = 0 ∧ s.a = 0 ∧ s.b = 0 ∧ s.out = 0 ∧ s.bus = none ∧
    (∀ n : Nib, memRead s.mem n = img n.toFin) ∧ s.halted = false ∧ s.seqStep = .fetch 0 ∧ s.Safe

/-- Reset is creation with the default image, every cell 0 (R29, R120); it is a safe state and meets the in-flight invariant. -/
def Obligations.ResetMeetsTheInvariants : Prop :=
  State.reset = State.new (fun _ => 0) ∧ State.reset.Safe ∧ State.reset.InFlight

/-! ## Invariants and safety -/

/-- The memory keeps its canonical form and the sequencer stays at a step of R26, over every step and every pulse. -/
def Obligations.SafeStatesAreKept : Prop :=
  (∀ s t : State, s.Safe → step s = .next t → t.Safe) ∧
  ∀ (s t : State) (r : CycleResult), s.Safe → pulse s = .next (t, r) → t.Safe

/-- What the sequencer's position says about `addr`, `ir`, `pc`, `b` and the bus (R91, R92, R83, R84) is kept by every pulse and by every
step (the ROM's words are decision D7, log 9, and JMP's length D8, log 6; the latch of the opcode D14, log 11; the undefined bus D12,
log 3; the widening of `pc` D11, log 10). -/
def Obligations.InFlightIsKept : Prop :=
  (∀ (s t : State) (r : CycleResult), s.InFlight → pulse s = .next (t, r) → t.InFlight) ∧
  ∀ s t : State, s.InFlight → step s = .next t → t.InFlight

/-- From every safe state a step and a pulse answer a next state: nothing faults and nothing is refused (R107, R108, R62, R22). -/
def Obligations.SafeStatesNeverStop : Prop :=
  ∀ s : State, s.Safe → (∃ t, step s = .next t) ∧ ∃ r, pulse s = .next r

/-- Memory is constant from creation to halt (R33, R127): no step and no pulse of the fixed block writes a cell (the ROM's words are
decision D7, log 9). -/
def Obligations.MemoryNeverChangesInARun : Prop :=
  (∀ s t : State, step s = .next t → t.mem = s.mem) ∧
  ∀ (s t : State) (r : CycleResult), pulse s = .next (t, r) → t.mem = s.mem

/-! ## The sequencer, the pulse and the driver -/

/-- R90: every instruction begins with `{CO, MI}`, `{RO, II}`, `{CE}`, one per pulse, whatever its opcode. -/
def Obligations.SameThreeFetchWords : Prop :=
  ∀ s : State, s.AtBoundary → ∃ t1 t2 t3,
    pulse s = .next (t1, .applied (.ofFlags [.co, .mi]) t1.snapshot) ∧
    pulse t1 = .next (t2, .applied (.ofFlags [.ro, .ii]) t2.snapshot) ∧
    pulse t2 = .next (t3, .applied (.ofFlags [.ce]) t3.snapshot)

/-- The effect of the three fetch words on a machine with `pc = p` (R91), with the opcode of the fetched cell latched (R92, decision
D14, log 11). -/
def Obligations.FetchEffect : Prop :=
  ∀ s : State, s.AtBoundary →
    let cell := memRead s.mem s.pc
    pulses 3 s = .next { s with
      addr := s.pc, ir := cell, pc := s.pc + 1, bus := none,
      seqStep := if (rom (opcodeField cell)).length > 0 then .exec (opcodeField cell) 0 else .fetch 0 }

/-- The words of `ROM(opc)` in order, one per pulse, beginning with word 0 of the list of the opcode that `ir` holds at the end of the
fetch; when the list is used up, or is empty, the next pulse applies F0 at the current `pc` (R92, R93, R94; that the opcode is
latched right after F2 is decision D14, log 11). -/
def Obligations.ExecuteWordsInOrder : Prop :=
  (∀ (s : State) (h : 0 < (rom (opcodeField s.ir)).length), s.halted = false → s.seqStep = .fetch 2 →
    ∃ t r u, pulse s = .next (t, r) ∧ t.seqStep = .exec (opcodeField s.ir) 0 ∧
      pulse t = .next (u, .applied (rom (opcodeField s.ir))[0] u.snapshot)) ∧
  (∀ (s : State) (op : Opcode) (k : Nat) (h : k < (rom op).length), s.halted = false → s.seqStep = .exec op k →
    ∃ t, pulse s = .next (t, .applied (rom op)[k] t.snapshot) ∧
      t.seqStep = (if k + 1 < (rom op).length then .exec op (k + 1) else .fetch 0)) ∧
  (∀ s : State, s.halted = false → s.seqStep = .fetch 2 → rom (opcodeField s.ir) = [] →
    ∃ r, pulse s = .next r ∧ r.1.seqStep = .fetch 0) ∧
  ∀ s : State, s.AtBoundary →
    ∃ t, pulse s = .next (t, .applied (.ofFlags [.co, .mi]) t.snapshot) ∧ t.addr = s.pc

/-- R96: `Pulse(M)` on every machine the spec gives. -/
def Obligations.PulseAppliesOneWord : Prop :=
  ∀ s : State, s.Safe →
    (s.halted = true → pulse s = .next (s, .alreadyHalted)) ∧
    (s.halted = false → ∃ cw t, s.seqStep.word = some cw ∧ applyWord cw s = .next t ∧
      let t' := { t with seqStep := s.seqStep.next t }
      pulse s = .next (t', .applied cw t'.snapshot))

/-- Halting takes effect at the end of the pulse whose word asserts HLT (R98, R75, C3): that pulse applies the whole word, moves the
sequencer and returns its normal result, `isHalted` is true after it, and every later pulse returns `AlreadyHalted` (with no
payload: R99, decision D16, log 19) and changes nothing. -/
def Obligations.HaltTakesEffectAtTheEndOfItsPulse : Prop :=
  ∀ (s : State) (cw : ControlWord), s.halted = false → s.seqStep.word = some cw → cw.hlt = true →
    ∃ u, applyWord cw s = .next u ∧
      let t := u.setSeqStep (s.seqStep.next u)
      pulse s = .next (t, .applied cw t.snapshot) ∧ t.isHalted = true ∧
        ∀ n, pulses n t = .next t ∧ pulse t = .next (t, .alreadyHalted)

/-- `halted` is terminal: no pulse, query, step or instruction leaves it, and none changes anything, however many requests the
driver makes; every cycle result is `AlreadyHalted`, with no payload (R112, R99, R100, decision D16, log 19). That `step` and `exec`
answer a halted machine with the same state as a next state is the model's choice (log 12). -/
def Obligations.HaltedIsTerminal : Prop :=
  ∀ s : State, s.halted = true →
    (∀ qs : List Request, ∃ rs, serve qs s = .next (s, rs) ∧ rs.length = qs.length ∧
      ∀ r, Response.cycle r ∈ rs → r = .alreadyHalted) ∧
    step s = .next s ∧ ∀ i : Instr, exec i s = .next s

/-- A pulse leaves the machine halted exactly when it was halted before or the pulse applies a word with HLT. So from creation on, `halted`
is false until a pulse applies a word with HLT, and true from then on (R100, R25, R101; false at creation is decision D9, log 11). -/
def Obligations.HaltedExactlyAfterAHaltWord : Prop :=
  (∀ (s t : State) (r : CycleResult), pulse s = .next (t, r) →
    (t.isHalted = true ↔ s.halted = true ∨ ∃ cw, s.seqStep.word = some cw ∧ cw.hlt = true)) ∧
  ∀ (img : Fin 16 → Byte) (n : Nat), ∃ t, pulses n (State.new img) = .next t ∧
    (t.isHalted = true ↔ ∃ k < n, ∃ u cw, pulses k (State.new img) = .next u ∧ u.halted = false ∧
      u.seqStep.word = some cw ∧ cw.hlt = true)

/-- Only pulses change the machine (R100, R102, R104): whatever the driver asks, in any order, it is answered once per request and
the machine is left where its pulses alone leave it. The driver as a list of requests in any order, and a pulse as one atomic
transition, are decisions D15 and D1 (log 17). -/
def Obligations.OnlyPulsesChangeTheMachine : Prop :=
  ∀ (qs : List Request) (s : State), s.Safe →
    ∃ t rs, serve qs s = .next (t, rs) ∧ rs.length = qs.length ∧ pulses (qs.count .pulse) s = .next t

/-! ## The step and its pulses -/

/-- A step runs the decoded instruction: between two instructions, `step` is the meaning of the cell at `pc`, on the state the fetch
leaves (R90, R91; the step is the model's choice, log 1). -/
def Obligations.StepRunsTheDecodedInstruction : Prop :=
  ∀ s : State, s.AtBoundary → step s = exec (decodeCell (memRead s.mem s.pc)) s.fetched

/-- A step is exactly its instruction's pulses (R89, R94, R95): it leaves the state that `3 + length(ROM(opc))` pulses leave, at the next
fetch, and no smaller positive number of pulses reaches a next fetch. -/
def Obligations.StepIsItsPulses : Prop :=
  ∀ s : State, s.AtBoundary →
    let count := 3 + (rom (opcodeField (memRead s.mem s.pc))).length
    ∃ t, step s = .next t ∧ pulses count s = .next t ∧ t.seqStep = .fetch 0 ∧
      ∀ j, 0 < j → j < count → ∃ u, pulses j s = .next u ∧ u.seqStep ≠ .fetch 0

/-- In the middle of an instruction a step is the pulses that are left of it: at least one and at most six, and no smaller positive
number of pulses reaches a next fetch (R93, R95; the model's choice, log 1 and log 15). -/
def Obligations.StepFinishesTheInstructionInProgress : Prop :=
  ∀ s : State, s.Safe → s.halted = false →
    ∃ n t, 0 < n ∧ n ≤ 6 ∧ pulses n s = .next t ∧ step s = .next t ∧ t.seqStep = .fetch 0 ∧
      ∀ j, 0 < j → j < n → ∃ u, pulses j s = .next u ∧ u.seqStep ≠ .fetch 0

/-- The pulse counts of R89: 3, 5, 6, 4, 4, 4, and 3 for every unassigned opcode (JMP's is decision D8, log 6). -/
def Obligations.PulseCountsOfTheTable : Prop :=
  pulseCount (Config.opc .nop) = 3 ∧ pulseCount (Config.opc .lda) = 5 ∧ pulseCount (Config.opc .add) = 6 ∧
  pulseCount (Config.opc .jmp) = 4 ∧ pulseCount (Config.opc .out) = 4 ∧ pulseCount (Config.opc .halt) = 4 ∧
  ∀ op : Opcode, (∀ m, Config.opc m ≠ op) → pulseCount op = 3

/-! ## Each instruction: completion, with the whole next state -/

/-- The execute phase of NOP and of the ten unassigned opcodes completes and does nothing (R82, R88; that `exec` starts from the
instruction's cell in `ir`, as the fetch leaves it, is the model's choice, log 14, here and in the five statements below). -/
def Obligations.IdleInstructionsComplete : Prop :=
  ∀ (n : Operand) (s : State), s.halted = false →
    ∀ i ∈ [Instr.nop n, .unassigned3 n, .unassigned4 n, .unassigned5 n, .unassigned7 n, .unassigned8 n,
      .unassigned9 n, .unassignedA n, .unassignedB n, .unassignedC n, .unassignedD n],
      exec i s = .next { s with ir := encodeCell i, seqStep := .fetch 0 }

/-- LDA n loads the cell at n into `a` (R83; `addr` and the bus by decision D7). -/
def Obligations.LdaCompletes : Prop :=
  ∀ (n : Operand) (s : State), s.halted = false →
    exec (.lda n) s = .next { s with
      ir := cellOf (Config.opc .lda) n, addr := n, a := memRead s.mem n, bus := some (memRead s.mem n), seqStep := .fetch 0 }

/-- ADD n puts the cell at n into `b` and the wrapped sum into `a` (R84; `addr` and the bus by decision D7). -/
def Obligations.AddCompletes : Prop :=
  ∀ (n : Operand) (s : State), s.halted = false →
    exec (.add n) s = .next { s with
      ir := cellOf (Config.opc .add) n, addr := n, b := memRead s.mem n, a := s.a + memRead s.mem n,
      bus := some (s.a + memRead s.mem n), seqStep := .fetch 0 }

/-- JMP n leaves `pc = n` exactly (R85, R126). -/
def Obligations.JmpCompletes : Prop :=
  ∀ (n : Operand) (s : State), s.halted = false →
    exec (.jmp n) s = .next { s with
      ir := cellOf (Config.opc .jmp) n, pc := n, bus := some (n.setWidth 8), seqStep := .fetch 0 }

/-- OUT copies `a` to the output latch (R86). -/
def Obligations.OutCompletes : Prop :=
  ∀ (n : Operand) (s : State), s.halted = false →
    exec (.out n) s = .next { s with
      ir := cellOf (Config.opc .out) n, out := s.a, bus := some s.a, seqStep := .fetch 0 }

/-- HALT sets `halted` (R87). -/
def Obligations.HaltCompletes : Prop :=
  ∀ (n : Operand) (s : State), s.halted = false →
    exec (.halt n) s = .next { s with
      ir := cellOf (Config.opc .halt) n, halted := true, bus := none, seqStep := .fetch 0 }

/-! ## Each instruction as a whole, fetch included -/

/-- NOP and every unassigned opcode, from the cell at `pc = p`: only the fetch happens, in 3 pulses (R82, R88, C5; the bus after it is
decision D12, log 3). -/
def Obligations.NopAndUnassignedOnlyFetch : Prop :=
  ∀ s : State, s.AtBoundary →
    (∀ m, m ≠ Mnemonic.nop → opcodeField (memRead s.mem s.pc) ≠ Config.opc m) →
    let t := { s with addr := s.pc, ir := memRead s.mem s.pc, pc := s.pc + 1, bus := none }
    step s = .next t ∧ pulses 3 s = .next t

/-- LDA n, from the cell at `pc = p`, in 5 pulses (R83; the words are decision D7, log 9). -/
def Obligations.LdaWholeInstruction : Prop :=
  ∀ (s : State) (n : Operand), s.AtBoundary → memRead s.mem s.pc = cellOf (Config.opc .lda) n →
    let t := { s with
      addr := n, ir := cellOf (Config.opc .lda) n, pc := s.pc + 1, a := memRead s.mem n, bus := some (memRead s.mem n) }
    step s = .next t ∧ pulses 5 s = .next t

/-- ADD n, from the cell at `pc = p`, in 6 pulses; the sum is modulo 256 and no flag records it (R84; the words are decision D7, log 9). -/
def Obligations.AddWholeInstruction : Prop :=
  ∀ (s : State) (n : Operand), s.AtBoundary → memRead s.mem s.pc = cellOf (Config.opc .add) n →
    ∃ sum : Byte, sum.toNat = (s.a.toNat + (memRead s.mem n).toNat) % 256 ∧
    let t := { s with
      addr := n, ir := cellOf (Config.opc .add) n, pc := s.pc + 1, b := memRead s.mem n, a := sum, bus := some sum }
    step s = .next t ∧ pulses 6 s = .next t

/-- JMP n, from the cell at `pc = p`, in 4 pulses (R85, R126; the length is decision D8, log 6, and the words D7, log 9). -/
def Obligations.JmpWholeInstruction : Prop :=
  ∀ (s : State) (n : Operand), s.AtBoundary → memRead s.mem s.pc = cellOf (Config.opc .jmp) n →
    let t := { s with
      addr := s.pc, ir := cellOf (Config.opc .jmp) n, pc := n, bus := some (n.setWidth 8) }
    step s = .next t ∧ pulses 4 s = .next t

/-- OUT, from the cell at `pc = p`, in 4 pulses, whatever its operand (R86; the words are decision D7, log 9). -/
def Obligations.OutWholeInstruction : Prop :=
  ∀ (s : State) (n : Operand), s.AtBoundary → memRead s.mem s.pc = cellOf (Config.opc .out) n →
    let t := { s with
      addr := s.pc, ir := cellOf (Config.opc .out) n, pc := s.pc + 1, out := s.a, bus := some s.a }
    step s = .next t ∧ pulses 4 s = .next t

/-- HALT, from the cell at `pc = p`, in 4 pulses, whatever its operand; after it no pulse and no step changes anything (R87, R99; the words are
decision D7, log 9, the bus D12, log 3, the result's missing payload D16, log 19, the step on a halted machine log 12). -/
def Obligations.HaltWholeInstruction : Prop :=
  ∀ (s : State) (n : Operand), s.AtBoundary → memRead s.mem s.pc = cellOf (Config.opc .halt) n →
    let t := { s with
      addr := s.pc, ir := cellOf (Config.opc .halt) n, pc := s.pc + 1, halted := true, bus := none }
    step s = .next t ∧ pulses 4 s = .next t ∧ pulse t = .next (t, .alreadyHalted) ∧ step t = .next t

/-! ## Frames and what does not matter -/

/-- The frame of every instruction that gives a next state: every cell keeps its value; `pc` changes only by JMP, `addr` only by LDA and
ADD, `a` only by LDA and ADD, `b` only by ADD, `out` only by OUT, `halted` only by HALT (R82 to R88, R33; that no word asserts a further
flag is decision D7, log 9). `ir`, the bus and the sequencer step belong to the fetch and the words, and may change. -/
def Obligations.InstructionFrame : Prop :=
  ∀ (i : Instr) (s t : State), exec i s = .next t →
    (∀ n : Nib, memRead t.mem n = memRead s.mem n) ∧
    ((∀ n, i ≠ .jmp n) → t.pc = s.pc) ∧
    ((∀ n, i ≠ .lda n) → (∀ n, i ≠ .add n) → t.addr = s.addr ∧ t.a = s.a) ∧
    ((∀ n, i ≠ .add n) → t.b = s.b) ∧
    ((∀ n, i ≠ .out n) → t.out = s.out) ∧
    ((∀ n, i ≠ .halt n) → t.halted = s.halted)

/-- R16: the program counter over an instruction. F0 copies it onto the bus and into `addr`; the cell it names is the one fetched;
after the fetch it holds the address of the next cell, wrapping from 15 to 0; in the execute phase only JMP changes it. -/
def Obligations.ProgramCounterOverAnInstruction : Prop :=
  (∀ s : State, s.AtBoundary → ∃ r, pulse s = .next r ∧ r.1.pc = s.pc ∧ r.1.addr = s.pc ∧
    ∃ v, r.1.bus = some v ∧ v.toNat = s.pc.toNat) ∧
  (∀ s : State, s.AtBoundary → ∃ t, pulses 3 s = .next t ∧ t.ir = memRead s.mem s.pc ∧
    t.pc.toNat = (s.pc.toNat + 1) % 16) ∧
  ∀ (i : Instr) (s : State), s.halted = false →
    ∃ t, exec i s = .next t ∧ ((∀ n, i ≠ .jmp n) → t.pc = s.pc) ∧ ∀ n, i = .jmp n → t.pc = n

/-- The operand of NOP, OUT, HALT and the unassigned opcodes has no effect: with another operand only `ir` differs (R49, R52; the ROM's
words are decision D7, log 9; `exec` puts the cell into `ir`, log 14). -/
def Obligations.IgnoredOperandsHaveNoEffect : Prop :=
  ∀ (n m : Operand) (s t : State),
    ∀ f ∈ [Instr.nop, .unassigned3, .unassigned4, .unassigned5, .unassigned7, .unassigned8, .unassigned9, .unassignedA,
      .unassignedB, .unassignedC, .unassignedD, .out, .halt],
      s.halted = false → exec (f n) s = .next t → exec (f m) s = .next (t.setIr (encodeCell (f m)))

/-- A word that writes memory is seen by the very next fetch of that cell (R45, decision D21, log 24; R127). With MI in the word the cell
is that of the `addr` just written (R60, decision D5, log 7). -/
def Obligations.WrittenCellIsFetched : Prop :=
  ∀ (cw : ControlWord) (s : State), cw.wellFormed = true → s.mem.wf = true → cw.ri = true → cw.hlt = false → s.AtBoundary →
    ∃ t v, applyWord cw s = .next t ∧ t.bus = some v ∧
      (t.pc = t.addr → ∃ u, pulses 2 t = .next u ∧ u.ir = v)

/-! ## Whole runs -/

/-- "A program that never applies a word with HLT never ends" (R101). Between two instructions, not halted, with a memory that holds no HALT
cell: every step answers such a state again, with the memory unchanged, so every number of steps does (no other opcode's words
assert HLT: decision D7, log 9; the step is log 1). -/
def Obligations.RunWithoutHaltCellsNeverEnds : Prop :=
  (∀ s : State, s.AtBoundary → (∀ n : Nib, opcodeField (memRead s.mem n) ≠ Config.opc .halt) →
    ∃ t, step s = .next t ∧ t.AtBoundary ∧ t.mem = s.mem) ∧
  ∀ s : State, s.AtBoundary → (∀ n : Nib, opcodeField (memRead s.mem n) ≠ Config.opc .halt) →
    ∀ k, ∃ t : State, Host.Core.run Sys2Proof.core k s = .next t ∧ t.AtBoundary ∧ t.mem = s.mem

/-- A JMP to its own cell never ends (R85, R101): after any number of steps `pc` is still there, and so it is after every 4 pulses (JMP's
length is decision D8, log 6; the step is log 1). -/
def Obligations.JumpToItselfNeverEnds : Prop :=
  ∀ s : State, s.AtBoundary → memRead s.mem s.pc = cellOf (Config.opc .jmp) s.pc →
    ∀ k, (∃ t : State, Host.Core.run Sys2Proof.core k s = .next t ∧ t.pc = s.pc ∧ t.halted = false) ∧
      ∃ t : State, pulses (4 * k) s = .next t ∧ t.pc = s.pc ∧ t.halted = false
end

