-- ==== Sys2Proof/Laws/Word.lean ====
section
/-!
SUPPORT. The number of values of each word type, as numbers (spec/00_scope.md R7, R8).
-/

namespace Sys2Proof

@[simp] theorem two_pow_dataW : 2 ^ Config.dataW = 256 := rfl
@[simp] theorem two_pow_addrW : 2 ^ Config.addrW = 16 := rfl
@[simp] theorem two_pow_opcW : 2 ^ Config.opcW = 16 := rfl
@[simp] theorem two_pow_oprW : 2 ^ Config.oprW = 16 := rfl

/-- A byte is below 256. -/
theorem byte_toNat_lt (v : Byte) : v.toNat < 256 := v.isLt

/-- An address is below 16. -/
theorem nib_toNat_lt (n : Nib) : n.toNat < 16 := n.isLt

end Sys2Proof
end

