-- ==== Sys2Proof/Laws/Encoding.lean ====
section
/-!
SUPPORT. The two fields of a cell (spec/30_encoding.md R48).
-/

namespace Sys2Proof

@[simp] theorem opcodeField_cellOf (op n : Nib) : opcodeField (cellOf op n) = op := by
  revert op n; decide

@[simp] theorem operandField_cellOf (op n : Nib) : operandField (cellOf op n) = n := by
  revert op n; decide

@[simp] theorem cellOf_fields (cell : Byte) : cellOf (opcodeField cell) (operandField cell) = cell := by
  revert cell; decide

end Sys2Proof
end

