-- ==== Sys2Proof/Laws/Memory.lean ====
section
/-!
SUPPORT. The laws of the memory: read after write, the frame of a write, and the canonical form (spec/20_memory.md R32, R33).
-/

namespace Sys2Proof.Machine

/-- Below the bound of a canonical list no address is listed. -/
theorem Memory.lookup_of_lt {m : Memory} {lo n : Nat} (h : m.wfFrom lo = true) (hn : n < lo) :
    m.lookup n = unlistedCell := by
  induction m generalizing lo with
  | nil => rfl
  | cons c rest ih =>
    obtain ⟨k, v⟩ := c
    simp only [Memory.wfFrom, Bool.and_eq_true, decide_eq_true_eq] at h
    have hk : k ≠ n := by omega
    simp only [Memory.lookup, if_neg hk]
    exact ih h.2 (by omega)

/-- A canonical list stays canonical under a lower bound. -/
theorem Memory.wfFrom_mono {m : Memory} {lo lo' : Nat} (h : m.wfFrom lo = true) (hlo : lo' ≤ lo) :
    m.wfFrom lo' = true := by
  cases m with
  | nil => rfl
  | cons c rest =>
    obtain ⟨k, v⟩ := c
    simp only [Memory.wfFrom, Bool.and_eq_true, decide_eq_true_eq] at h ⊢
    exact ⟨⟨⟨by omega, h.1.1.2⟩, h.1.2⟩, h.2⟩

/-- A store keeps the canonical form. -/
theorem Memory.store_wfFrom {m : Memory} {lo n : Nat} (v : Byte) (h : m.wfFrom lo = true) (hlo : lo ≤ n)
    (hn : n < Config.memCells) : (m.store n v).wfFrom lo = true := by
  induction m generalizing lo with
  | nil =>
    by_cases hv : v = unlistedCell
    · simp [Memory.store, hv, Memory.wfFrom]
    · simp [Memory.store, hv, Memory.wfFrom, hlo, hn]
  | cons c rest ih =>
    obtain ⟨k, w⟩ := c
    have hc := h
    simp only [Memory.wfFrom, Bool.and_eq_true, decide_eq_true_eq] at h
    by_cases h1 : n < k
    · by_cases hv : v = unlistedCell
      · simpa [Memory.store, h1, hv] using hc
      · simp only [Memory.store, if_pos h1, if_neg hv, Memory.wfFrom, Bool.and_eq_true, decide_eq_true_eq]
        exact ⟨⟨⟨hlo, hn⟩, hv⟩, ⟨⟨by omega, h.1.1.2⟩, h.1.2⟩, h.2⟩
    · by_cases h2 : n = k
      · subst h2
        by_cases hv : v = unlistedCell
        · simpa [Memory.store, hv] using Memory.wfFrom_mono h.2 (by omega)
        · simp only [Memory.store, if_neg h1, if_true, if_neg hv, Memory.wfFrom, Bool.and_eq_true, decide_eq_true_eq]
          exact ⟨⟨⟨hlo, hn⟩, hv⟩, h.2⟩
      · simp only [Memory.store, if_neg h1, if_neg h2, Memory.wfFrom, Bool.and_eq_true, decide_eq_true_eq]
        exact ⟨h.1, ih h.2 (by omega)⟩

/-- Read after write, at the address written. -/
theorem Memory.lookup_store_same {m : Memory} {lo n : Nat} (v : Byte) (h : m.wfFrom lo = true) :
    (m.store n v).lookup n = v := by
  induction m generalizing lo with
  | nil =>
    by_cases hv : v = unlistedCell
    · simp [Memory.store, hv, Memory.lookup]
    · simp [Memory.store, hv, Memory.lookup]
  | cons c rest ih =>
    obtain ⟨k, w⟩ := c
    simp only [Memory.wfFrom, Bool.and_eq_true, decide_eq_true_eq] at h
    by_cases h1 : n < k
    · have hk : k ≠ n := by omega
      by_cases hv : v = unlistedCell
      · simp only [Memory.store, if_pos h1, if_pos hv, Memory.lookup, if_neg hk]
        rw [Memory.lookup_of_lt h.2 (by omega), hv]
      · simp [Memory.store, h1, hv, Memory.lookup]
    · by_cases h2 : n = k
      · subst h2
        by_cases hv : v = unlistedCell
        · simp only [Memory.store, if_neg h1, if_true, if_pos hv]
          rw [Memory.lookup_of_lt h.2 (by omega), hv]
        · simp [Memory.store, hv, Memory.lookup]
      · have hk : k ≠ n := fun e => h2 e.symm
        simp only [Memory.store, if_neg h1, if_neg h2, Memory.lookup, if_neg hk]
        exact ih h.2

/-- A write leaves every other address alone, in any list. -/
theorem Memory.lookup_store_other {m : Memory} {n k : Nat} (v : Byte) (hk : k ≠ n) :
    (m.store n v).lookup k = m.lookup k := by
  induction m with
  | nil =>
    by_cases hv : v = unlistedCell
    · simp [Memory.store, hv]
    · simp [Memory.store, hv, Memory.lookup, hk.symm]
  | cons c rest ih =>
    obtain ⟨j, w⟩ := c
    by_cases h1 : n < j
    · by_cases hv : v = unlistedCell
      · simp [Memory.store, h1, hv]
      · simp [Memory.store, h1, hv, Memory.lookup, hk.symm]
    · by_cases h2 : n = j
      · subst h2
        by_cases hv : v = unlistedCell
        · simp [Memory.store, hv, Memory.lookup, hk.symm]
        · simp [Memory.store, hv, Memory.lookup, hk.symm]
      · by_cases h3 : j = k
        · subst h3
          simp [Memory.store, h1, h2, Memory.lookup]
        · simp only [Memory.store, if_neg h1, if_neg h2, Memory.lookup, if_neg h3]
          exact ih

/-- A cell write keeps the canonical form: every 4-bit address is one of the 16 cells (R34). -/
theorem memWrite_wf {m : Memory} (n : Nib) (v : Byte) (h : m.wf = true) : Memory.wf (memWrite m n v) = true :=
  Memory.store_wfFrom v h (Nat.zero_le _) n.isLt

/-- Reading the cell just written (R33). -/
theorem memRead_memWrite_same {m : Memory} (n : Nib) (v : Byte) (h : m.wf = true) :
    memRead (memWrite m n v) n = v := Memory.lookup_store_same v h

/-- A cell write changes no other cell (R33). -/
theorem memRead_memWrite_other {m : Memory} {n k : Nib} (v : Byte) (h : k ≠ n) :
    memRead (memWrite m n v) k = memRead m k :=
  Memory.lookup_store_other v fun e => h (BitVec.eq_of_toNat_eq e)

/-- The memory of the reset state is canonical. -/
theorem reset_mem_wf : State.reset.mem.wf = true := rfl

/-- Storing a list of cells keeps the canonical form. -/
theorem Memory.foldl_store_wf (img : Fin 16 → Byte) (is : List (Fin 16)) {m : Memory} (h : m.wf = true) :
    Memory.wf (is.foldl (fun m i => Memory.store m i.val (img i)) m) = true := by
  induction is generalizing m with
  | nil => exact h
  | cons i is ih => exact ih (Memory.store_wfFrom (img i) h (Nat.zero_le _) i.isLt)

/-- The memory of an image is canonical. -/
theorem Memory.ofImage_wf (img : Fin 16 → Byte) : (Memory.ofImage img).wf = true :=
  Memory.foldl_store_wf img _ rfl

end Sys2Proof.Machine
end

