-- ==== Sys2Proof/Laws/State.lean ====
section
/-!
SUPPORT. One lemma per field per update of State, and the fields of a created machine, each true by rfl.
-/

namespace Sys2Proof.Machine

@[simp] theorem State.setPc_pc (s : State) (v : Nib) : (s.setPc v).pc = v := rfl
@[simp] theorem State.setPc_addr (s : State) (v : Nib) : (s.setPc v).addr = s.addr := rfl
@[simp] theorem State.setPc_ir (s : State) (v : Nib) : (s.setPc v).ir = s.ir := rfl
@[simp] theorem State.setPc_a (s : State) (v : Nib) : (s.setPc v).a = s.a := rfl
@[simp] theorem State.setPc_b (s : State) (v : Nib) : (s.setPc v).b = s.b := rfl
@[simp] theorem State.setPc_bus (s : State) (v : Nib) : (s.setPc v).bus = s.bus := rfl
@[simp] theorem State.setPc_out (s : State) (v : Nib) : (s.setPc v).out = s.out := rfl
@[simp] theorem State.setPc_mem (s : State) (v : Nib) : (s.setPc v).mem = s.mem := rfl
@[simp] theorem State.setPc_halted (s : State) (v : Nib) : (s.setPc v).halted = s.halted := rfl
@[simp] theorem State.setPc_seqStep (s : State) (v : Nib) : (s.setPc v).seqStep = s.seqStep := rfl

@[simp] theorem State.setAddr_pc (s : State) (v : Nib) : (s.setAddr v).pc = s.pc := rfl
@[simp] theorem State.setAddr_addr (s : State) (v : Nib) : (s.setAddr v).addr = v := rfl
@[simp] theorem State.setAddr_ir (s : State) (v : Nib) : (s.setAddr v).ir = s.ir := rfl
@[simp] theorem State.setAddr_a (s : State) (v : Nib) : (s.setAddr v).a = s.a := rfl
@[simp] theorem State.setAddr_b (s : State) (v : Nib) : (s.setAddr v).b = s.b := rfl
@[simp] theorem State.setAddr_bus (s : State) (v : Nib) : (s.setAddr v).bus = s.bus := rfl
@[simp] theorem State.setAddr_out (s : State) (v : Nib) : (s.setAddr v).out = s.out := rfl
@[simp] theorem State.setAddr_mem (s : State) (v : Nib) : (s.setAddr v).mem = s.mem := rfl
@[simp] theorem State.setAddr_halted (s : State) (v : Nib) : (s.setAddr v).halted = s.halted := rfl
@[simp] theorem State.setAddr_seqStep (s : State) (v : Nib) : (s.setAddr v).seqStep = s.seqStep := rfl

@[simp] theorem State.setIr_pc (s : State) (v : Byte) : (s.setIr v).pc = s.pc := rfl
@[simp] theorem State.setIr_addr (s : State) (v : Byte) : (s.setIr v).addr = s.addr := rfl
@[simp] theorem State.setIr_ir (s : State) (v : Byte) : (s.setIr v).ir = v := rfl
@[simp] theorem State.setIr_a (s : State) (v : Byte) : (s.setIr v).a = s.a := rfl
@[simp] theorem State.setIr_b (s : State) (v : Byte) : (s.setIr v).b = s.b := rfl
@[simp] theorem State.setIr_bus (s : State) (v : Byte) : (s.setIr v).bus = s.bus := rfl
@[simp] theorem State.setIr_out (s : State) (v : Byte) : (s.setIr v).out = s.out := rfl
@[simp] theorem State.setIr_mem (s : State) (v : Byte) : (s.setIr v).mem = s.mem := rfl
@[simp] theorem State.setIr_halted (s : State) (v : Byte) : (s.setIr v).halted = s.halted := rfl
@[simp] theorem State.setIr_seqStep (s : State) (v : Byte) : (s.setIr v).seqStep = s.seqStep := rfl

@[simp] theorem State.setA_pc (s : State) (v : Byte) : (s.setA v).pc = s.pc := rfl
@[simp] theorem State.setA_addr (s : State) (v : Byte) : (s.setA v).addr = s.addr := rfl
@[simp] theorem State.setA_ir (s : State) (v : Byte) : (s.setA v).ir = s.ir := rfl
@[simp] theorem State.setA_a (s : State) (v : Byte) : (s.setA v).a = v := rfl
@[simp] theorem State.setA_b (s : State) (v : Byte) : (s.setA v).b = s.b := rfl
@[simp] theorem State.setA_bus (s : State) (v : Byte) : (s.setA v).bus = s.bus := rfl
@[simp] theorem State.setA_out (s : State) (v : Byte) : (s.setA v).out = s.out := rfl
@[simp] theorem State.setA_mem (s : State) (v : Byte) : (s.setA v).mem = s.mem := rfl
@[simp] theorem State.setA_halted (s : State) (v : Byte) : (s.setA v).halted = s.halted := rfl
@[simp] theorem State.setA_seqStep (s : State) (v : Byte) : (s.setA v).seqStep = s.seqStep := rfl

@[simp] theorem State.setB_pc (s : State) (v : Byte) : (s.setB v).pc = s.pc := rfl
@[simp] theorem State.setB_addr (s : State) (v : Byte) : (s.setB v).addr = s.addr := rfl
@[simp] theorem State.setB_ir (s : State) (v : Byte) : (s.setB v).ir = s.ir := rfl
@[simp] theorem State.setB_a (s : State) (v : Byte) : (s.setB v).a = s.a := rfl
@[simp] theorem State.setB_b (s : State) (v : Byte) : (s.setB v).b = v := rfl
@[simp] theorem State.setB_bus (s : State) (v : Byte) : (s.setB v).bus = s.bus := rfl
@[simp] theorem State.setB_out (s : State) (v : Byte) : (s.setB v).out = s.out := rfl
@[simp] theorem State.setB_mem (s : State) (v : Byte) : (s.setB v).mem = s.mem := rfl
@[simp] theorem State.setB_halted (s : State) (v : Byte) : (s.setB v).halted = s.halted := rfl
@[simp] theorem State.setB_seqStep (s : State) (v : Byte) : (s.setB v).seqStep = s.seqStep := rfl

@[simp] theorem State.setBus_pc (s : State) (v : Option Byte) : (s.setBus v).pc = s.pc := rfl
@[simp] theorem State.setBus_addr (s : State) (v : Option Byte) : (s.setBus v).addr = s.addr := rfl
@[simp] theorem State.setBus_ir (s : State) (v : Option Byte) : (s.setBus v).ir = s.ir := rfl
@[simp] theorem State.setBus_a (s : State) (v : Option Byte) : (s.setBus v).a = s.a := rfl
@[simp] theorem State.setBus_b (s : State) (v : Option Byte) : (s.setBus v).b = s.b := rfl
@[simp] theorem State.setBus_bus (s : State) (v : Option Byte) : (s.setBus v).bus = v := rfl
@[simp] theorem State.setBus_out (s : State) (v : Option Byte) : (s.setBus v).out = s.out := rfl
@[simp] theorem State.setBus_mem (s : State) (v : Option Byte) : (s.setBus v).mem = s.mem := rfl
@[simp] theorem State.setBus_halted (s : State) (v : Option Byte) : (s.setBus v).halted = s.halted := rfl
@[simp] theorem State.setBus_seqStep (s : State) (v : Option Byte) : (s.setBus v).seqStep = s.seqStep := rfl

@[simp] theorem State.setOut_pc (s : State) (v : Byte) : (s.setOut v).pc = s.pc := rfl
@[simp] theorem State.setOut_addr (s : State) (v : Byte) : (s.setOut v).addr = s.addr := rfl
@[simp] theorem State.setOut_ir (s : State) (v : Byte) : (s.setOut v).ir = s.ir := rfl
@[simp] theorem State.setOut_a (s : State) (v : Byte) : (s.setOut v).a = s.a := rfl
@[simp] theorem State.setOut_b (s : State) (v : Byte) : (s.setOut v).b = s.b := rfl
@[simp] theorem State.setOut_bus (s : State) (v : Byte) : (s.setOut v).bus = s.bus := rfl
@[simp] theorem State.setOut_out (s : State) (v : Byte) : (s.setOut v).out = v := rfl
@[simp] theorem State.setOut_mem (s : State) (v : Byte) : (s.setOut v).mem = s.mem := rfl
@[simp] theorem State.setOut_halted (s : State) (v : Byte) : (s.setOut v).halted = s.halted := rfl
@[simp] theorem State.setOut_seqStep (s : State) (v : Byte) : (s.setOut v).seqStep = s.seqStep := rfl

@[simp] theorem State.setMem_pc (s : State) (v : Memory) : (s.setMem v).pc = s.pc := rfl
@[simp] theorem State.setMem_addr (s : State) (v : Memory) : (s.setMem v).addr = s.addr := rfl
@[simp] theorem State.setMem_ir (s : State) (v : Memory) : (s.setMem v).ir = s.ir := rfl
@[simp] theorem State.setMem_a (s : State) (v : Memory) : (s.setMem v).a = s.a := rfl
@[simp] theorem State.setMem_b (s : State) (v : Memory) : (s.setMem v).b = s.b := rfl
@[simp] theorem State.setMem_bus (s : State) (v : Memory) : (s.setMem v).bus = s.bus := rfl
@[simp] theorem State.setMem_out (s : State) (v : Memory) : (s.setMem v).out = s.out := rfl
@[simp] theorem State.setMem_mem (s : State) (v : Memory) : (s.setMem v).mem = v := rfl
@[simp] theorem State.setMem_halted (s : State) (v : Memory) : (s.setMem v).halted = s.halted := rfl
@[simp] theorem State.setMem_seqStep (s : State) (v : Memory) : (s.setMem v).seqStep = s.seqStep := rfl

@[simp] theorem State.halt_pc (s : State) : s.halt.pc = s.pc := rfl
@[simp] theorem State.halt_addr (s : State) : s.halt.addr = s.addr := rfl
@[simp] theorem State.halt_ir (s : State) : s.halt.ir = s.ir := rfl
@[simp] theorem State.halt_a (s : State) : s.halt.a = s.a := rfl
@[simp] theorem State.halt_b (s : State) : s.halt.b = s.b := rfl
@[simp] theorem State.halt_bus (s : State) : s.halt.bus = s.bus := rfl
@[simp] theorem State.halt_out (s : State) : s.halt.out = s.out := rfl
@[simp] theorem State.halt_mem (s : State) : s.halt.mem = s.mem := rfl
@[simp] theorem State.halt_halted (s : State) : s.halt.halted = true := rfl
@[simp] theorem State.halt_seqStep (s : State) : s.halt.seqStep = s.seqStep := rfl

@[simp] theorem State.setSeqStep_pc (s : State) (v : SeqStep) : (s.setSeqStep v).pc = s.pc := rfl
@[simp] theorem State.setSeqStep_addr (s : State) (v : SeqStep) : (s.setSeqStep v).addr = s.addr := rfl
@[simp] theorem State.setSeqStep_ir (s : State) (v : SeqStep) : (s.setSeqStep v).ir = s.ir := rfl
@[simp] theorem State.setSeqStep_a (s : State) (v : SeqStep) : (s.setSeqStep v).a = s.a := rfl
@[simp] theorem State.setSeqStep_b (s : State) (v : SeqStep) : (s.setSeqStep v).b = s.b := rfl
@[simp] theorem State.setSeqStep_bus (s : State) (v : SeqStep) : (s.setSeqStep v).bus = s.bus := rfl
@[simp] theorem State.setSeqStep_out (s : State) (v : SeqStep) : (s.setSeqStep v).out = s.out := rfl
@[simp] theorem State.setSeqStep_mem (s : State) (v : SeqStep) : (s.setSeqStep v).mem = s.mem := rfl
@[simp] theorem State.setSeqStep_halted (s : State) (v : SeqStep) : (s.setSeqStep v).halted = s.halted := rfl
@[simp] theorem State.setSeqStep_seqStep (s : State) (v : SeqStep) : (s.setSeqStep v).seqStep = v := rfl

@[simp] theorem State.new_pc (img : Fin 16 → Byte) : (State.new img).pc = 0 := rfl
@[simp] theorem State.new_addr (img : Fin 16 → Byte) : (State.new img).addr = 0 := rfl
@[simp] theorem State.new_ir (img : Fin 16 → Byte) : (State.new img).ir = 0 := rfl
@[simp] theorem State.new_a (img : Fin 16 → Byte) : (State.new img).a = 0 := rfl
@[simp] theorem State.new_b (img : Fin 16 → Byte) : (State.new img).b = 0 := rfl
@[simp] theorem State.new_bus (img : Fin 16 → Byte) : (State.new img).bus = none := rfl
@[simp] theorem State.new_out (img : Fin 16 → Byte) : (State.new img).out = 0 := rfl
@[simp] theorem State.new_mem (img : Fin 16 → Byte) : (State.new img).mem = Memory.ofImage img := by rw [State.new, State.setMem_mem]
@[simp] theorem State.new_halted (img : Fin 16 → Byte) : (State.new img).halted = false := rfl
@[simp] theorem State.new_seqStep (img : Fin 16 → Byte) : (State.new img).seqStep = .fetch 0 := rfl

end Sys2Proof.Machine
end

