-- ==== Sys2Proof/Laws/Flags.lean ====
section
/-!
SUPPORT. What the control-word executor can do, said once (spec/40_control_flag_handlers.md R58 to R61).
-/

namespace Sys2Proof.Machine

@[simp] theorem andThen_next {α β : Type} (s : α) (f : α → Host.Outcome β Fault Refusal) :
    andThen (.next s) f = f s := rfl

/-- The value a word's output handler puts on the bus, from the registers at the start of the cycle (R59). -/
def wordBus (cw : ControlWord) (s : State) : Option Byte :=
  if cw.eo then some (alu s.a s.b cw.su)
  else if cw.co then some (zext8 s.pc)
  else if cw.ao then some s.a
  else if cw.io then some s.operandByte
  else if cw.ro then some (memRead s.mem s.addr)
  else none

/-- What a register or a cell takes from the bus: the value there, or what it held. -/
def take {α : Type} (flag : Bool) (bus : Option Byte) (f : Byte → α) (old : α) : α :=
  match flag, bus with
  | true, some v => f v
  | _, _ => old

@[simp] theorem take_false {α : Type} (bus : Option Byte) (f : Byte → α) (old : α) : take false bus f old = old := rfl

@[simp] theorem take_true_some {α : Type} (v : Byte) (f : Byte → α) (old : α) : take true (some v) f old = f v := rfl

/-- A well-formed word asserts at most one output flag (R61). -/
theorem outputs_le_one {cw : ControlWord} (h : cw.wellFormed = true) : cw.outputs ≤ 1 := by
  simp only [ControlWord.wellFormed, Bool.and_eq_true, decide_eq_true_eq] at h
  exact h.1

/-- A well-formed word with an input flag or J asserts exactly one output flag (R61). -/
theorem outputs_eq_one {cw : ControlWord} (h : cw.wellFormed = true) (hr : cw.readsBus = true) : cw.outputs = 1 := by
  simp only [ControlWord.wellFormed, hr, Bool.and_eq_true, decide_eq_true_eq, Bool.not_true, Bool.false_or] at h
  exact h.2

/-- With at most one output flag, that flag's handler alone decides the bus (R59). -/
theorem wordBus_of_output {cw : ControlWord} (s : State) (h : cw.outputs ≤ 1) :
    (cw.ro = true → wordBus cw s = some (memRead s.mem s.addr)) ∧
    (cw.io = true → wordBus cw s = some s.operandByte) ∧
    (cw.ao = true → wordBus cw s = some s.a) ∧
    (cw.co = true → wordBus cw s = some (zext8 s.pc)) ∧
    (cw.eo = true → wordBus cw s = some (alu s.a s.b cw.su)) := by
  revert h
  rcases cw with ⟨ro, io, ao, co, eo, _, _, _, _, _, _, _, _, _, su⟩
  cases ro <;> cases io <;> cases ao <;> cases co <;> cases eo <;> simp [wordBus, ControlWord.outputs]

/-- The bus holds a value after a word exactly when an output flag is asserted (R20, R21). -/
theorem wordBus_isSome {cw : ControlWord} (s : State) (h : cw.outputs ≤ 1) :
    (wordBus cw s).isSome = true ↔ cw.outputs = 1 := by
  revert h
  rcases cw with ⟨ro, io, ao, co, eo, _, _, _, _, _, _, _, _, _, su⟩
  cases ro <;> cases io <;> cases ao <;> cases co <;> cases eo <;> simp [wordBus, ControlWord.outputs]

/-- The handlers of a well-formed word that read the bus find a value there (R22). -/
theorem wordBus_of_reads {cw : ControlWord} (s : State) (h : cw.wellFormed = true) (hr : cw.readsBus = true) :
    ∃ v, wordBus cw s = some v :=
  Option.isSome_iff_exists.mp ((wordBus_isSome s (outputs_le_one h)).mpr (outputs_eq_one h hr))

/-- The state after a well-formed word (R58). -/
def wordState (cw : ControlWord) (s : State) : State where
  pc := take cw.j (wordBus cw s) trunc4 (if cw.ce then s.pc + 1 else s.pc)
  addr := take cw.mi (wordBus cw s) trunc4 s.addr
  ir := take cw.ii (wordBus cw s) id s.ir
  a := take cw.ai (wordBus cw s) id s.a
  b := take cw.bi (wordBus cw s) id s.b
  bus := wordBus cw s
  out := take cw.oi (wordBus cw s) id s.out
  mem := take cw.ri (wordBus cw s) (memWrite s.mem (take cw.mi (wordBus cw s) trunc4 s.addr)) s.mem
  halted := cw.hlt || s.halted
  seqStep := s.seqStep

@[simp] theorem wordState_pc (cw : ControlWord) (s : State) :
    (wordState cw s).pc = take cw.j (wordBus cw s) trunc4 (if cw.ce then s.pc + 1 else s.pc) := rfl

@[simp] theorem wordState_addr (cw : ControlWord) (s : State) :
    (wordState cw s).addr = take cw.mi (wordBus cw s) trunc4 s.addr := rfl

@[simp] theorem wordState_ir (cw : ControlWord) (s : State) :
    (wordState cw s).ir = take cw.ii (wordBus cw s) id s.ir := rfl

@[simp] theorem wordState_a (cw : ControlWord) (s : State) :
    (wordState cw s).a = take cw.ai (wordBus cw s) id s.a := rfl

@[simp] theorem wordState_b (cw : ControlWord) (s : State) :
    (wordState cw s).b = take cw.bi (wordBus cw s) id s.b := rfl

@[simp] theorem wordState_bus (cw : ControlWord) (s : State) :
    (wordState cw s).bus = wordBus cw s := rfl

@[simp] theorem wordState_out (cw : ControlWord) (s : State) :
    (wordState cw s).out = take cw.oi (wordBus cw s) id s.out := rfl

@[simp] theorem wordState_mem (cw : ControlWord) (s : State) :
    (wordState cw s).mem = take cw.ri (wordBus cw s) (memWrite s.mem (take cw.mi (wordBus cw s) trunc4 s.addr)) s.mem := rfl

@[simp] theorem wordState_halted (cw : ControlWord) (s : State) :
    (wordState cw s).halted = (cw.hlt || s.halted) := rfl

@[simp] theorem wordState_seqStep (cw : ControlWord) (s : State) :
    (wordState cw s).seqStep = s.seqStep := rfl

/-- A handler table in two parts runs one after the other. -/
theorem runHandlers_append (xs ys : List (Flag × Handler)) (cw : ControlWord) (s : State) :
    runHandlers (xs ++ ys) cw s = andThen (runHandlers xs cw s) (runHandlers ys cw) := by
  induction xs generalizing s with
  | nil => rfl
  | cons x xs ih =>
    obtain ⟨f, h⟩ := x
    simp only [List.cons_append, runHandlers]
    split
    · cases h cw s with
      | next t => exact ih t
      | fault r => rfl
      | refused r => rfl
    · exact ih s

/-- The output class only writes the bus; a later output would overwrite an earlier one. -/
theorem runHandlers_outputs (cw : ControlWord) (s : State) :
    runHandlers outputHandlers cw (s.setBus none) = .next (s.setBus (wordBus cw s)) := by
  simp only [outputHandlers, runHandlers, ControlWord.has, wordBus]
  rcases cw with ⟨ro, io, ao, co, eo, _, _, _, _, _, _, _, _, _, su⟩
  cases ro <;> cases io <;> cases ao <;> cases co <;> cases eo <;> rfl

/-- The input class with a value on the bus. -/
theorem runHandlers_inputs_some (cw : ControlWord) (s : State) (v : Byte) (h : s.bus = some v) :
    runHandlers inputHandlers cw s = .next
      { s with
        addr := if cw.mi then trunc4 v else s.addr
        ir := if cw.ii then v else s.ir
        a := if cw.ai then v else s.a
        b := if cw.bi then v else s.b
        out := if cw.oi then v else s.out
        mem := if cw.ri then memWrite s.mem (if cw.mi then trunc4 v else s.addr) v else s.mem } := by
  obtain ⟨pc, addr, ir, a, b, bus, out, mem, halted, seqStep⟩ := s
  subst h
  rcases cw with ⟨_, _, _, _, _, bi, oi, mi, ri, ii, ai, _, _, _, _⟩
  cases bi <;> cases oi <;> cases mi <;> cases ri <;> cases ii <;> cases ai <;> rfl

/-- What a well-formed word does to any state: it always answers this next state (R58, R62). -/
theorem applyWord_of_wellFormed (cw : ControlWord) (s : State) (h : cw.wellFormed = true) :
    applyWord cw s = .next (wordState cw s) := by
  rw [applyWord, if_pos h, handlerTable, List.append_assoc, runHandlers_append, runHandlers_outputs, andThen_next,
    runHandlers_append]
  cases hb : wordBus cw s with
  | some v =>
    rw [runHandlers_inputs_some cw _ v rfl, andThen_next]
    simp only [wordState, hb]
    rcases cw with ⟨_, _, _, _, _, bi, oi, mi, ri, ii, ai, hlt, ce, j, _⟩
    cases hlt <;> cases ce <;> cases j <;> cases bi <;> cases oi <;> cases mi <;> cases ri <;> cases ii <;> cases ai <;> rfl
  | none =>
    rcases cw with ⟨ro, io, ao, co, eo, bi, oi, mi, ri, ii, ai, hlt, ce, j, su⟩
    have hout : ro = false ∧ io = false ∧ ao = false ∧ co = false ∧ eo = false := by
      revert hb
      cases ro <;> cases io <;> cases ao <;> cases co <;> cases eo <;> simp [wordBus]
    obtain ⟨rfl, rfl, rfl, rfl, rfl⟩ := hout
    have hin : bi = false ∧ oi = false ∧ mi = false ∧ ri = false ∧ ii = false ∧ ai = false ∧ j = false := by
      revert h
      cases bi <;> cases oi <;> cases mi <;> cases ri <;> cases ii <;> cases ai <;> cases j <;>
        simp [ControlWord.wellFormed, ControlWord.outputs, ControlWord.readsBus]
    obtain ⟨rfl, rfl, rfl, rfl, rfl, rfl, rfl⟩ := hin
    cases hlt <;> cases ce <;> rfl

/-- A word that is not well-formed is refused under its own name (R61). -/
theorem applyWord_of_not_wellFormed (cw : ControlWord) (s : State) (h : cw.wellFormed = false) :
    applyWord cw s = .refused (.illFormedWord cw) := by
  rw [applyWord, if_neg (by simp [h])]

end Sys2Proof.Machine
end

