-- ==== Sys2Proof/Laws/Sequencer.lean ====
section
/-!
SUPPORT. What one pulse and a list of words can do, said once (spec/42_sequencer_and_clock.md R90 to R99).
-/

namespace Sys2Proof.Machine

/-- Every word of the ROM is well-formed (R80, R61). -/
theorem rom_wellFormed {op : Nib} {cw : ControlWord} (h : cw ∈ rom op) : cw.wellFormed = true := by
  have all : ∀ op : Nib, (rom op).all ControlWord.wellFormed = true := by decide
  exact List.all_eq_true.mp (all op) cw h

/-- Every fetch word is well-formed (R90, R61). -/
theorem fetchWords_wellFormed {cw : ControlWord} (h : cw ∈ fetchWords) : cw.wellFormed = true := by
  have all : fetchWords.all ControlWord.wellFormed = true := by decide
  exact List.all_eq_true.mp all cw h

/-- The word of a sequencer step is well-formed. -/
theorem SeqStep.word_wellFormed {p : SeqStep} {cw : ControlWord} (h : p.word = some cw) : cw.wellFormed = true := by
  cases p with
  | fetch i => exact fetchWords_wellFormed (List.mem_of_getElem? h)
  | exec op k => exact rom_wellFormed (List.mem_of_getElem? h)

/-- A sequencer step of R26 names a word. -/
theorem SeqStep.word_of_legal {p : SeqStep} (h : p.legal = true) : ∃ cw, p.word = some cw := by
  cases p with
  | fetch i => exact ⟨fetchWords[i.val]'i.isLt, List.getElem?_eq_getElem i.isLt⟩
  | exec op k =>
    have hk : k < (rom op).length := by simpa [SeqStep.legal] using h
    exact ⟨(rom op)[k], List.getElem?_eq_getElem hk⟩

/-- The position after a word of an execute phase is one of R26. -/
theorem SeqStep.execFrom_legal (op : Nib) (k : Nat) : (SeqStep.execFrom op k).legal = true := by
  unfold SeqStep.execFrom
  split
  · next h => simpa [SeqStep.legal] using h
  · rfl

/-- A pulse on a halted machine (R99). -/
theorem pulse_of_halted {s : State} (h : s.halted = true) : pulse s = .next (s, .alreadyHalted) := by
  rw [pulse, if_pos h]

/-- A pulse on a running machine applies the word of its sequencer step (R96). -/
theorem pulse_of_running {s : State} {cw : ControlWord} (h : s.halted = false) (hw : s.seqStep.word = some cw) :
    pulse s = .next ((wordState cw s).setSeqStep (s.seqStep.next (wordState cw s)),
      .applied cw (wordState cw s).snapshot) := by
  rw [pulse, if_neg (by simp [h]), hw]
  simp only [applyWord_of_wellFormed cw s (SeqStep.word_wellFormed hw), andThen_next]
  rfl

/-- One pulse and then `n` more. -/
theorem pulses_succ (n : Nat) (s : State) : pulses (n + 1) s = andThen (pulse s) fun r => pulses n r.1 := rfl

/-- Pulses in two parts. -/
theorem pulses_add (m n : Nat) (s : State) : pulses (m + n) s = andThen (pulses m s) (pulses n) := by
  induction m generalizing s with
  | zero => rw [Nat.zero_add]; rfl
  | succ m ih =>
    rw [Nat.succ_add, pulses_succ, pulses_succ]
    cases pulse s with
    | next r => exact ih r.1
    | fault r => rfl
    | refused r => rfl

/-- The first word of a list on a running machine. -/
theorem runWords_cons {s : State} {cw : ControlWord} (rest : List ControlWord) (h : s.halted = false)
    (hw : cw.wellFormed = true) : runWords (cw :: rest) s = runWords rest (wordState cw s) := by
  rw [runWords, if_neg (by simp [h]), applyWord_of_wellFormed cw s hw, andThen_next]

/-- A list of well-formed words always answers a next state. -/
theorem runWords_completes (words : List ControlWord) (s : State) (h : ∀ cw ∈ words, cw.wellFormed = true) :
    ∃ t, runWords words s = .next t := by
  induction words generalizing s with
  | nil => exact ⟨s, rfl⟩
  | cons cw rest ih =>
    cases hs : s.halted with
    | true => exact ⟨s, by rw [runWords, if_pos hs]⟩
    | false =>
      rw [runWords_cons rest hs (h cw List.mem_cons_self)]
      exact ih _ fun c hc => h c (List.mem_cons_of_mem _ hc)

/-- Finishing a list of words does not depend on where the sequencer stood. -/
theorem finishWords_setSeqStep (words : List ControlWord) (s : State) (p : SeqStep) :
    finishWords words (s.setSeqStep p) = finishWords words s := by
  induction words generalizing s with
  | nil => rfl
  | cons cw rest ih =>
    cases hs : s.halted with
    | true => simp [finishWords, runWords, hs, State.setSeqStep]
    | false =>
      cases hw : cw.wellFormed with
      | true =>
        rw [finishWords, finishWords, runWords_cons rest (s := s.setSeqStep p) hs hw, runWords_cons rest hs hw]
        exact ih (wordState cw s)
      | false => simp [finishWords, runWords, hs, applyWord_of_not_wellFormed _ _ hw, andThen]

end Sys2Proof.Machine
end

