-- ==== Sys2Proof/Laws/Exec.lean ====
section
/-!
SUPPORT. Every meaning is the execute phase over its opcode's ROM list (spec/42_sequencer_and_clock.md R93).
-/

namespace Sys2Proof.Machine

/-- The meaning of `i` is its execute phase with the words of its opcode's ROM list. -/
theorem exec_eq_executeWords (i : Instr) (s : State) : exec i s = executeWords i (rom i.opcode) s := by
  cases i <;> rfl

/-- The opcode of a decoded cell is the cell's opcode field. -/
theorem opcode_decodeCell (cell : Byte) : (decodeCell cell).opcode = opcodeField cell := by
  revert cell; decide

/-- The operand of a decoded cell is the cell's operand field. -/
theorem operand_decodeCell (cell : Byte) : (decodeCell cell).operand = operandField cell := by
  revert cell; decide

/-- A halted machine runs no instruction (R99). -/
theorem exec_of_halted (i : Instr) {s : State} (h : s.halted = true) : exec i s = .next s := by
  rw [exec_eq_executeWords, executeWords, if_pos h]

/-- On a running machine an execute phase starts from the state whose `ir` holds the instruction's cell. -/
theorem exec_of_running (i : Instr) {s : State} (h : s.halted = false) :
    exec i s = finishWords (rom i.opcode) (s.setIr (encodeCell i)) := by
  rw [exec_eq_executeWords, executeWords, if_neg (by simp [h])]

/-- Words that are all well-formed finish with the sequencer at the next fetch. -/
theorem finishWords_completes (words : List ControlWord) (s : State) (h : ∀ cw ∈ words, cw.wellFormed = true) :
    ∃ t, runWords words s = .next t ∧ finishWords words s = .next (t.setSeqStep (.fetch 0)) := by
  obtain ⟨t, ht⟩ := runWords_completes words s h
  exact ⟨t, ht, by rw [finishWords, ht, andThen_next]⟩

/-- No meaning stops: `exec` always answers a next state. -/
theorem exec_completes (i : Instr) (s : State) : ∃ t, exec i s = .next t := by
  cases h : s.halted with
  | true => exact ⟨s, exec_of_halted i h⟩
  | false =>
    obtain ⟨t, _, ht⟩ := finishWords_completes (rom i.opcode) (s.setIr (encodeCell i)) fun _ => rom_wellFormed
    exact ⟨_, by rw [exec_of_running i h]; exact ht⟩

end Sys2Proof.Machine
end

