-- ==== Sys2Proof/Laws/PerInstr.lean ====
section
/-!
SUPPORT. Facts about every instruction as syntax: the two fields of its cell, its length and its well-formedness
(spec/30_encoding.md R47, R48).
-/

namespace Sys2Proof.Laws.EncodingFields

/-- The cell of `i` carries `i`'s opcode in bits 7:4 and its operand in bits 3:0, is one byte, and `i` is well-formed. -/
def Statement (i : Instr) : Prop :=
  opcodeField (encodeCell i) = i.opcode ∧ operandField (encodeCell i) = i.operand ∧ (encode i).length = 1 ∧
    i.wellFormed = true

/-- The four facts, from the instruction's well-formedness alone. -/
theorem of_wellFormed {i : Instr} (h : i.wellFormed = true) : Statement i :=
  ⟨opcodeField_cellOf _ _, operandField_cellOf _ _, rfl, h⟩

theorem nop (n : Nib) : Statement (.nop n) := of_wellFormed rfl
theorem lda (n : Nib) : Statement (.lda n) := of_wellFormed rfl
theorem add (n : Nib) : Statement (.add n) := of_wellFormed rfl
theorem unassigned3 (n : Nib) : Statement (.unassigned3 n) := of_wellFormed rfl
theorem unassigned4 (n : Nib) : Statement (.unassigned4 n) := of_wellFormed rfl
theorem unassigned5 (n : Nib) : Statement (.unassigned5 n) := of_wellFormed rfl
theorem jmp (n : Nib) : Statement (.jmp n) := of_wellFormed rfl
theorem unassigned7 (n : Nib) : Statement (.unassigned7 n) := of_wellFormed rfl
theorem unassigned8 (n : Nib) : Statement (.unassigned8 n) := of_wellFormed rfl
theorem unassigned9 (n : Nib) : Statement (.unassigned9 n) := of_wellFormed rfl
theorem unassignedA (n : Nib) : Statement (.unassignedA n) := of_wellFormed rfl
theorem unassignedB (n : Nib) : Statement (.unassignedB n) := of_wellFormed rfl
theorem unassignedC (n : Nib) : Statement (.unassignedC n) := of_wellFormed rfl
theorem unassignedD (n : Nib) : Statement (.unassignedD n) := of_wellFormed rfl
theorem out (n : Nib) : Statement (.out n) := of_wellFormed rfl
theorem halt (n : Nib) : Statement (.halt n) := of_wellFormed rfl

end Sys2Proof.Laws.EncodingFields
end

