-- ==== Sys2Proof/Tests/Slice0.lean ====
section
/-!
SUPPORT. The model's own tests: one step, one pulse or one word each, with expected results from spec/95_test_vectors.md, and
a witness for the hypotheses of every statement that has some.
-/

namespace Sys2Proof.Tests

open Sys2Proof.Machine

/-- The next state of an answer. -/
def nextOf {α : Type} : Host.Outcome α Fault Refusal → Option α
  | .next s => some s
  | .fault _ => none
  | .refused _ => none

/-- The refusal of an answer. -/
def refusalOf {α : Type} : Host.Outcome α Fault Refusal → Option Refusal
  | .next _ => none
  | .fault _ => none
  | .refused r => some r

/-- A created machine with registers `pc`, `a`, `b` and memory given. -/
def machine (pc : Nib) (a b : Byte) (mem : Memory) : State := { State.reset with pc := pc, a := a, b := b, mem := mem }

/-- A field of the state after one word. -/
def after {α : Type} (fs : List Flag) (s : State) (f : State → α) : Option α := (nextOf (applyWord (.ofFlags fs) s)).map f

/-- The registers and the halted status after one step, as the vectors of 2.6 list them. -/
def regsAfterStep (s : State) : Option (Snapshot × Bool) := (nextOf (step s)).map fun t => (t.snapshot, t.halted)

/-! ## Parameters, well-formedness, decoding -/

/-- The parameters of R7 agree with each other and with the model's types and lists. -/
theorem test_parameters_agree : Config.memCells = 2 ^ Config.addrW ∧ Flag.all.length = Config.numFlags ∧
    fetchWords.length = Config.fetchLen ∧ Config.opcW + Config.oprW = Config.dataW ∧
    allOpcodes.length = 16 ∧ (unassignedOpcodes Config.opc).length = 10 := by decide

/-- The default map is injective (R50). -/
theorem test_default_map_injective : opcInjective Config.opc = true := by decide

/-- A map that gives two mnemonics one opcode is refused (R50). -/
theorem test_constant_map_refused : (Instr.nop 0).wellFormedFor (fun _ => 0x0) = false := by decide

/-- Another map changes no rule (R7, R51): with LDA at 0x3, opcode 0x1 is the first unassigned row, and no cell is lost. -/
theorem test_another_opcode_map :
    let opc : Mnemonic → Opcode := fun m => if m = .lda then 0x3 else Config.opc m
    decodeCellFor opc 0x35 = .lda 5 ∧ decodeCellFor opc 0x15 = .unassigned3 5 ∧
    encodeCellFor opc (.unassigned3 5) = 0x15 ∧ encodeCellFor opc (.unassignedD 15) = 0xDF ∧ romFor opc 0x1 = [] := by
  decide

/-- X11, X12, X13: two outputs, an input without an output, J without an output. -/
theorem test_ill_formed_words_refused :
    refusalOf (applyWord (.ofFlags [.ro, .ao]) State.reset) = some (.illFormedWord (.ofFlags [.ro, .ao])) ∧
    refusalOf (applyWord (.ofFlags [.bi]) State.reset) = some (.illFormedWord (.ofFlags [.bi])) ∧
    refusalOf (applyWord (.ofFlags [.j]) State.reset) = some (.illFormedWord (.ofFlags [.j])) := by decide

/-- Every row's cell, opcode from the table of R50 and R51, operand bits 0101. -/
theorem test_every_row_decodes :
    decodeCell 0b00000101 = .nop 5 ∧ decodeCell 0b00010101 = .lda 5 ∧ decodeCell 0b00100101 = .add 5 ∧
    decodeCell 0b00110101 = .unassigned3 5 ∧ decodeCell 0b01000101 = .unassigned4 5 ∧
    decodeCell 0b01010101 = .unassigned5 5 ∧ decodeCell 0b01100101 = .jmp 5 ∧ decodeCell 0b01110101 = .unassigned7 5 ∧
    decodeCell 0b10000101 = .unassigned8 5 ∧ decodeCell 0b10010101 = .unassigned9 5 ∧
    decodeCell 0b10100101 = .unassignedA 5 ∧ decodeCell 0b10110101 = .unassignedB 5 ∧
    decodeCell 0b11000101 = .unassignedC 5 ∧ decodeCell 0b11010101 = .unassignedD 5 ∧ decodeCell 0b11100101 = .out 5 ∧
    decodeCell 0b11110101 = .halt 5 := by decide

/-- The empty list of bytes is refused by name. -/
theorem test_no_byte_refused : decode [] = .error .noCell := rfl

/-- The numbers of R54 for the words the block uses. -/
theorem test_word_numbers :
    fetchWords.map ControlWord.toBits = [0x0088, 0x0201, 0x1000] ∧
    (microcode .add).map ControlWord.toBits = [0x0082, 0x0021, 0x0410] ∧
    (microcode .lda).map ControlWord.toBits = [0x0082, 0x0401] ∧ (microcode .jmp).map ControlWord.toBits = [0x2002] ∧
    (microcode .out).map ControlWord.toBits = [0x0044] ∧ (microcode .halt).map ControlWord.toBits = [0x0800] := by decide

/-! ## Handlers and the executor -/

/-- H1, H3, H6: RO reads the addressed cell, IO only the operand nibble, CO zero-extends. -/
theorem test_output_handlers :
    after [.ro, .oi] { State.reset with addr := 3, mem := [(3, 0x99)] } State.out = some 0x99 ∧
    after [.io, .oi] { State.reset with ir := 0xF7 } State.out = some 0x07 ∧
    after [.co, .oi] { State.reset with pc := 0xF } State.out = some 0x0F := by decide

/-- A2, A4, A6, A9. -/
theorem test_alu_vectors :
    alu 0xFF 0x01 false = 0x00 ∧ alu 0xC8 0x64 false = 0x2C ∧ alu 0x00 0x01 true = 0xFF ∧ alu 0x00 0xFF true = 0x01 := by
  decide

/-- W1: address-in masks. -/
theorem test_address_in_masks :
    [0x00, 0x0F, 0x10, 0xAB, 0xFF].map (fun v => after [.ao, .mi] { State.reset with a := v } State.addr) =
      [some 0x0, some 0xF, some 0x0, some 0xB, some 0xF] := by decide

/-- I1, I5, I11: B-in, instr-reg-in, and J above 15. -/
theorem test_input_handlers :
    after [.ao, .bi] { State.reset with a := 0x33 } State.b = some 0x33 ∧
    after [.ao, .ii] { State.reset with a := 0x1E } State.ir = some 0x1E ∧
    after [.ao, .j] { State.reset with a := 0x25 } State.pc = some 0x5 := by decide

/-- I4: RAM-in writes one cell, and nothing beside it. -/
theorem test_ram_in :
    after [.ao, .ri] { State.reset with a := 0x99, addr := 5, mem := [(4, 0x11), (6, 0x22)] } State.mem =
      some [(4, 0x11), (5, 0x99), (6, 0x22)] := by decide

/-- A RAM-in of 0 removes the entry: an unlisted cell reads as 0. -/
theorem test_ram_in_zero : after [.ao, .ri] { State.reset with addr := 5, mem := [(5, 0x11)] } State.mem = some [] := by
  decide

/-- X4, X5: J runs after CE; RI uses the `addr` that MI has just written. -/
theorem test_order_inside_a_class :
    after [.io, .ce, .j] { State.reset with pc := 3, ir := 0x09 } State.pc = some 9 ∧
    after [.io, .mi, .ri] { State.reset with ir := 0x05 } (fun t => (t.addr, t.mem)) = some (5, [(5, 0x05)]) := by decide

/-- X1, X7: the outputs read the registers from the start of the cycle. -/
theorem test_outputs_read_old_registers :
    after [.eo, .ai] { State.reset with a := 0x1C, b := 0x0E } State.a = some 0x2A ∧
    after [.ro, .mi] { State.reset with addr := 4, mem := [(4, 0x1A)] } (fun t => (t.bus, t.addr)) =
      some (some 0x1A, 0xA) := by decide

/-- X8, X9: CE still fires beside HLT; the empty word only loses the bus. -/
theorem test_halt_and_empty_words :
    after [.hlt, .ce] { State.reset with pc := 4 } (fun t => (t.halted, t.pc)) = some (true, 5) ∧
    after [] { State.reset with bus := some 3, a := 7 } id = some { State.reset with a := 7 } := by decide

/-- W7: SU does not stick. -/
theorem test_subtract_not_sticky :
    after [.eo, .su, .ai] { State.reset with a := 0x05, b := 0x07 } State.a = some 0xFE ∧
    after [.eo, .ai] { State.reset with a := 0xFE, b := 0x07 } State.a = some 0x05 := by decide

/-! ## The sequencer and the pulse -/

/-- S3, S4, S5, S7, S8, S9. -/
theorem test_next_step :
    SeqStep.next (.fetch 2) { State.reset with ir := 0x00 } = .fetch 0 ∧
    SeqStep.next (.fetch 2) { State.reset with ir := 0x35 } = .fetch 0 ∧
    SeqStep.next (.fetch 2) { State.reset with ir := 0x1E } = .exec 0x1 0 ∧
    SeqStep.next (.exec 0x1 1) State.reset = .fetch 0 ∧ SeqStep.next (.exec 0x2 1) State.reset = .exec 0x2 2 ∧
    SeqStep.next (.exec 0x6 0) State.reset = .fetch 0 := by decide

/-- Q2: the first pulse applies `{CO, MI}` and reports the registers. -/
theorem test_first_pulse :
    (nextOf (pulse (machine 5 0 0 []))).map Prod.snd =
      some (.applied (.ofFlags [.co, .mi]) { pc := 5, addr := 5, ir := 0, a := 0, b := 0, bus := some 5, out := 0 }) := by
  decide

/-- Q3, Q4: the pulse of `{HLT}` returns a normal result and halts; the next one is `AlreadyHalted`. -/
theorem test_halt_pulses :
    (nextOf (pulse { State.reset with seqStep := .exec 0xF 0 })).map (fun r => (r.1.isHalted, r.2 == .alreadyHalted)) =
      some (true, false) ∧
    nextOf (pulse { State.reset with halted := true }) = some ({ State.reset with halted := true }, .alreadyHalted) := by
  decide

/-- Q1: a created machine is not halted, and asking changes nothing; then one pulse moves the sequencer once (R100, R102). -/
theorem test_serve : (nextOf (serve [.isHalted, .pulse, .inspect] State.reset)).map (fun r => (r.1.seqStep, r.2.head?, r.2.length)) =
    some (.fetch 1, some (.halted false), 3) := by decide

/-- A sequencer step that R26 does not give is refused by name. -/
theorem test_no_such_word :
    refusalOf (pulse { State.reset with seqStep := .exec 0x3 0 }) = some (.noSuchWord (.exec 0x3 0)) ∧
    refusalOf (step { State.reset with seqStep := .exec 0x1 2 }) = some (.noSuchWord (.exec 0x1 2)) := by decide

/-! ## The instructions, by the vectors of 2.6 -/

/-- N2: NOP at cell 15, operand ignored, `pc` wraps. -/
theorem test_nop_wraps : regsAfterStep (machine 15 0 0 [(15, 0x07)]) =
    some ({ pc := 0, addr := 15, ir := 0x07, a := 0, b := 0, bus := none, out := 0 }, false) := by decide

/-- L1 and L2: LDA, also of its own cell. -/
theorem test_lda : regsAfterStep (machine 0 0 0 [(0, 0x1E), (14, 0x1C)]) =
      some ({ pc := 1, addr := 14, ir := 0x1E, a := 0x1C, b := 0, bus := some 0x1C, out := 0 }, false) ∧
    regsAfterStep (machine 0 0 0 [(0, 0x10)]) =
      some ({ pc := 1, addr := 0, ir := 0x10, a := 0x10, b := 0, bus := some 0x10, out := 0 }, false) := by decide

/-- D1 and D2: ADD, and its wrap. -/
theorem test_add : regsAfterStep (machine 1 0x1C 0 [(1, 0x2F), (15, 0x0E)]) =
      some ({ pc := 2, addr := 15, ir := 0x2F, a := 0x2A, b := 0x0E, bus := some 0x2A, out := 0 }, false) ∧
    regsAfterStep (machine 1 0xFF 0 [(1, 0x2F), (15, 0x01)]) =
      some ({ pc := 2, addr := 15, ir := 0x2F, a := 0x00, b := 0x01, bus := some 0x00, out := 0 }, false) := by decide

/-- J2 and J3: JMP to itself, and from cell 15 to 0. -/
theorem test_jmp : regsAfterStep (machine 5 0 0 [(5, 0x65)]) =
      some ({ pc := 5, addr := 5, ir := 0x65, a := 0, b := 0, bus := some 0x05, out := 0 }, false) ∧
    regsAfterStep (machine 15 0 0 [(15, 0x60)]) =
      some ({ pc := 0, addr := 15, ir := 0x60, a := 0, b := 0, bus := some 0x00, out := 0 }, false) := by decide

/-- O1 and O2: OUT, operand ignored. -/
theorem test_out : regsAfterStep (machine 2 0x2A 0x0E [(2, 0xE0)]) =
      some ({ pc := 3, addr := 2, ir := 0xE0, a := 0x2A, b := 0x0E, bus := some 0x2A, out := 0x2A }, false) ∧
    regsAfterStep { machine 0 0 0 [(0, 0xE9)] with out := 0x55 } =
      some ({ pc := 1, addr := 0, ir := 0xE9, a := 0, b := 0, bus := some 0x00, out := 0x00 }, false) := by decide

/-- T1: HALT. -/
theorem test_halt : regsAfterStep (machine 1 9 8 [(1, 0xF0)]) =
    some ({ pc := 2, addr := 1, ir := 0xF0, a := 9, b := 8, bus := none, out := 0 }, true) := by decide

/-- U1 and U2: unassigned opcodes. -/
theorem test_unassigned : regsAfterStep (machine 1 9 8 [(1, 0x35)]) =
      some ({ pc := 2, addr := 1, ir := 0x35, a := 9, b := 8, bus := none, out := 0 }, false) ∧
    regsAfterStep (machine 0 9 8 [(0, 0xDF)]) =
      some ({ pc := 1, addr := 0, ir := 0xDF, a := 9, b := 8, bus := none, out := 0 }, false) := by decide

/-- The other unassigned opcodes, each from cell 0: only `pc`, `addr` and `ir` change (R88). -/
theorem test_other_unassigned :
    [0x4A, 0x5A, 0x7A, 0x8A, 0x9A, 0xAA, 0xBA, 0xCA].all (fun c =>
      decide (nextOf (step (machine 0 9 8 [(0, c)])) = some { machine 1 9 8 [(0, c)] with ir := c })) = true := by decide

/-- A cell placed by `withFetchWord` is the instruction the next step runs, also on a halted machine in the middle of a fetch. -/
theorem test_with_fetch_word :
    regsAfterStep (State.withFetchWord { State.reset with halted := true, seqStep := .fetch 2, pc := 3 } 8 0x61) =
      some ({ pc := 1, addr := 3, ir := 0x61, a := 0, b := 0, bus := some 0x01, out := 0 }, false) := by decide

/-- A step in the middle of an instruction finishes it: ADD before its last word (P2, pulse 11). -/
theorem test_step_finishes :
    (nextOf (step { State.reset with pc := 2, addr := 15, ir := 0x2F, a := 0x1C, b := 0x0E, bus := some 0x0E, seqStep := .exec 0x2 2 })).map
      (fun t => (t.a, t.b, t.seqStep)) = some (0x2A, 0x0E, .fetch 0) := by decide

/-- The lines of P1 as cells, and two lines for one cell (R55). -/
theorem test_image_lines :
    ((imageOf [.mnemonic 0 .lda (some 14), .mnemonic 1 .halt none, .literal 14 90]).map fun f => [f 0, f 1, f 2, f 14]) =
      some [0x1E, 0xF0, 0x00, 0x5A] ∧
    (imageOf [.literal 3 1, .mnemonic 3 .nop none]).isNone = true := by decide

/-! ## Witnesses: a state and operands that meet each statement's hypotheses together -/

/-- The state between two instructions that the witnesses use, with a given cell at `pc = 15`. -/
def boundary (cell : Byte) : State := machine 15 0x80 0x07 (memWrite [(14, 0x80)] 15 cell)

/-- The default map is injective, and so is one that gives LDA another opcode. -/
theorem test_witness_DecodeAndEncodeAgree :
    (∀ m k, Config.opc m = Config.opc k → m = k) ∧
    (let opc : Mnemonic → Opcode := fun m => if m = .lda then 0x3 else Config.opc m
      ∀ m k, opc m = opc k → m = k) ∧
    (Instr.unassignedD 15).wellFormed = true ∧ (Instr.halt 0).wellFormed = true :=
  ⟨fun m k => by cases m <;> cases k <;> decide, fun m k => by cases m <;> cases k <;> decide, by decide, by decide⟩

theorem test_witness_RomUnderEveryOpcodeMap :
    (∀ m k, Config.opc m = Config.opc k → m = k) ∧ ∀ m, Config.opc m ≠ 0xD :=
  ⟨fun m k => by cases m <;> cases k <;> decide, fun m => by cases m <;> decide⟩

theorem test_witness_RomWordsAreTheTable : ControlWord.ofFlags [.eo, .ai] ∈ microcode .add := by decide

theorem test_witness_ImageHoldsItsLines :
    ([ImageLine.literal 15 0xFF, .mnemonic 0 .lda none].map ImageLine.address).Nodup ∧ (ImageLine.literal 15 0xFF).address.toNat = (15 : Fin 16).val ∧
    (ImageLine.literal 15 0xFF).address.toNat ≠ (0 : Fin 16).val ∧
    ¬ ([ImageLine.literal 15 1, .literal 15 2].map ImageLine.address).Nodup := by decide

/-- Well-formed words that assert each flag, for every statement with the hypothesis `cw.wellFormed` and a flag. -/
theorem test_witness_well_formed_words :
    ([[.ro, .ri, .mi], [.io, .j, .ce], [.ao, .bi, .oi], [.co, .ii], [.eo, .su, .ai], [.hlt, .ce], [.ce], []] : List (List Flag)).all
      (fun fs => (ControlWord.ofFlags fs).wellFormed) = true := by decide

theorem test_witness_ExactlyIllFormedWordsRefused :
    (ControlWord.ofFlags [.ro, .eo]).wellFormed = false ∧ (ControlWord.ofFlags [.ai]).wellFormed = false := by decide

theorem test_witness_OutputsRunBeforeInputs_jump_boundary :
    after [.ao, .j] { State.reset with a := 15 } State.pc = some 15 := by decide

theorem test_witness_MemoryOnlyThroughRamHandlers :
    (ControlWord.ofFlags [.ao, .ri]).ro = false ∧ (nextOf (applyWord (.ofFlags [.ao, .ri]) State.reset)).isSome = true ∧
    (ControlWord.ofFlags [.ro, .ri]).wellFormed = true ∧ State.reset.mem.wf = true := by decide

theorem test_witness_BusHoldsNothingFromEarlierCycles : State.reset.halted = false ∧ State.reset.seqStep = .fetch 0 := by
  decide

theorem test_witness_SubtractIsNotSticky :
    (nextOf (applyWord (.ofFlags [.eo, .su, .ai]) State.reset)).isSome = true ∧
    (ControlWord.ofFlags [.eo, .ai]).wellFormed = true ∧ (ControlWord.ofFlags [.eo, .ai]).su = false ∧
    (ControlWord.ofFlags [.ao, .ai]).wellFormed = true ∧ (ControlWord.ofFlags [.ao, .ai]).eo = false := by decide

theorem test_witness_AddressLatch :
    (ControlWord.ofFlags [.ao, .ri]).wellFormed = true ∧ (ControlWord.ofFlags [.ao, .ri]).mi = false ∧
    (ControlWord.ofFlags [.ro, .mi]).wellFormed = true ∧ (boundary 0xFF).mem.wf = true := by decide

theorem test_witness_InstructionRegister :
    let s : State := { boundary 0x1E with seqStep := .fetch 1 }
    let t : State := { boundary 0x1E with seqStep := .fetch 2 }
    s.halted = false ∧ s.seqStep = .fetch 1 ∧ t.halted = false ∧ t.seqStep = .fetch 2 ∧
    (nextOf (applyWord (.ofFlags [.io, .ii]) s)).isSome = true := by decide

theorem test_witness_OutputLatchIsReadByNothing :
    (nextOf (applyWord (.ofFlags [.ao, .oi]) (boundary 0))).isSome = true ∧ (nextOf (pulse (boundary 0))).isSome = true ∧
    (nextOf (step (boundary 0xE0))).isSome = true := by decide

theorem test_witness_RegisterBNeverInfluencesAnInstruction :
    (nextOf (exec (.add 14) (boundary 0x2E))).isSome = true ∧ (nextOf (step (boundary 0x2E))).isSome = true ∧
    (boundary 0x2E).AtBoundary ∧ opcodeField (memRead (boundary 0x2E).mem (boundary 0x2E).pc) = Config.opc .add ∧
    opcodeField (memRead (boundary 0x1E).mem (boundary 0x1E).pc) ≠ Config.opc .add ∧ ∀ n, Instr.lda 14 ≠ .add n :=
  ⟨by decide, by decide, ⟨rfl, rfl⟩, by decide, by decide, nofun⟩

/-- Every cell is a boundary state's instruction: the hypothesis `AtBoundary` of the fetch, step and run statements. -/
theorem test_witness_AtBoundary : State.reset.AtBoundary ∧ (boundary 0x1E).AtBoundary :=
  ⟨⟨rfl, rfl⟩, ⟨rfl, rfl⟩⟩

/-- A safe state between two instructions, and one in the middle of ADD, for every statement with the hypothesis `Safe`. -/
theorem test_witness_Safe :
    (boundary 0x2E).Safe ∧ (boundary 0x2E).halted = false ∧ ({ boundary 0x2E with seqStep := .exec 0x2 2 } : State).Safe ∧
    (nextOf (step { boundary 0x2E with seqStep := .exec 0x2 2 })).isSome = true ∧
    (nextOf (pulse { boundary 0x2E with seqStep := .exec 0x2 2 })).isSome = true := by
  refine ⟨⟨by decide, by decide⟩, by decide, ⟨by decide, by decide⟩, by decide, by decide⟩

/-- An in-flight state in the middle of ADD 14 (R84): `addr`, the bus and `b` are what its second word leaves. -/
theorem test_witness_InFlightIsKept :
    let s : State := { boundary 0x2E with
      pc := 0, addr := 14, ir := 0x2E, b := 0x80, bus := some 0x80, seqStep := .exec 0x2 2 }
    s.InFlight ∧ (nextOf (pulse s)).isSome = true ∧ (nextOf (step s)).isSome = true := by
  exact ⟨⟨nofun, by decide, by decide, by decide, by decide, by decide⟩, by decide, by decide⟩

theorem test_witness_MemoryNeverChangesInARun :
    (nextOf (step (boundary 0x1E))).isSome = true ∧ (nextOf (pulse (boundary 0x1E))).isSome = true := by decide

theorem test_witness_ExecuteWordsInOrder :
    let s : State := { boundary 0x2E with seqStep := .exec 0x2 2 }
    let t : State := { boundary 0x35 with ir := 0x35, seqStep := .fetch 2 }
    let u : State := { boundary 0x1E with ir := 0x1E, seqStep := .fetch 2 }
    0 < (rom (opcodeField u.ir)).length ∧ u.halted = false ∧ u.seqStep = .fetch 2 ∧
    2 < (rom 0x2).length ∧ s.halted = false ∧ s.seqStep = .exec 0x2 2 ∧ t.halted = false ∧ t.seqStep = .fetch 2 ∧
    rom (opcodeField t.ir) = [] := by decide

theorem test_witness_PulseAppliesOneWord :
    ({ boundary 0 with halted := true } : State).Safe ∧ (boundary 0).Safe ∧ (boundary 0).halted = false :=
  ⟨⟨by decide, by decide⟩, ⟨by decide, by decide⟩, by decide⟩

theorem test_witness_HaltTakesEffectAtTheEndOfItsPulse :
    let s : State := { boundary 0xF0 with seqStep := .exec 0xF 0 }
    s.halted = false ∧ s.seqStep.word = some (.ofFlags [.hlt]) ∧ (ControlWord.ofFlags [.hlt]).hlt = true := by decide

/-- A pulse that halts, a pulse that does not, and a pulse on a halted machine. -/
theorem test_witness_HaltedExactlyAfterAHaltWord :
    (nextOf (pulse { boundary 0xF0 with seqStep := .exec 0xF 0 })).map (fun r => r.1.isHalted) = some true ∧
    (nextOf (pulse (boundary 0xF0))).map (fun r => r.1.isHalted) = some false ∧
    (nextOf (pulse { boundary 0 with halted := true })).map (fun r => r.1.isHalted) = some true := by decide

theorem test_witness_HaltedIsTerminal : ({ boundary 0 with halted := true } : State).halted = true := rfl

theorem test_witness_PulseCountsOfTheTable : ∀ m, Config.opc m ≠ 0x3 := fun m => by cases m <;> decide

/-- The completion statements: a machine that is not halted, with the operands at both ends of their range. -/
theorem test_witness_completions :
    (boundary 0).halted = false ∧ Instr.unassignedD 15 ∈ [Instr.nop 15, .unassignedD 15] ∧
    [Instr.nop 0, .lda 15, .add 15, .jmp 0, .out 15, .halt 15, .unassigned3 0].all
      (fun i => (nextOf (exec i (boundary 0))).isSome) = true := by decide

/-- The whole-instruction statements: a boundary state whose cell at `pc` is each instruction, `pc = 15`. -/
theorem test_witness_whole_instructions :
    memRead (boundary 0x1F).mem (boundary 0x1F).pc = cellOf (Config.opc .lda) 15 ∧
    memRead (boundary 0x2E).mem (boundary 0x2E).pc = cellOf (Config.opc .add) 14 ∧
    memRead (boundary 0x60).mem (boundary 0x60).pc = cellOf (Config.opc .jmp) 0 ∧
    memRead (boundary 0xE9).mem (boundary 0xE9).pc = cellOf (Config.opc .out) 9 ∧
    memRead (boundary 0xF1).mem (boundary 0xF1).pc = cellOf (Config.opc .halt) 1 := by decide

/-- Cells whose opcode is NOP's and an unassigned one, for `NopAndUnassignedOnlyFetch`. -/
theorem test_witness_NopAndUnassignedOnlyFetch :
    (∀ m, m ≠ Mnemonic.nop → opcodeField (memRead (boundary 0x07).mem 15) ≠ Config.opc m) ∧
    ∀ m, m ≠ Mnemonic.nop → opcodeField (memRead (boundary 0xD7).mem 15) ≠ Config.opc m :=
  ⟨fun m => by cases m <;> decide, fun m => by cases m <;> decide⟩

theorem test_witness_InstructionFrame :
    (nextOf (exec (.out 3) (boundary 0))).isSome = true ∧ (∀ n, Instr.out 3 ≠ .jmp n) ∧ (∀ n, Instr.out 3 ≠ .lda n) ∧
    (∀ n, Instr.out 3 ≠ .add n) ∧ (∀ n, Instr.jmp 3 ≠ .out n) ∧ ∀ n, Instr.out 3 ≠ .halt n :=
  ⟨by decide, nofun, nofun, nofun, nofun, nofun⟩

theorem test_witness_ProgramCounterOverAnInstruction :
    (boundary 0).halted = false ∧ (boundary 0).AtBoundary ∧ ∀ n, Instr.add 3 ≠ .jmp n := ⟨rfl, ⟨rfl, rfl⟩, nofun⟩

theorem test_witness_IgnoredOperandsHaveNoEffect :
    (boundary 0).halted = false ∧ (nextOf (exec (.halt 9) (boundary 0))).isSome = true ∧
    (nextOf (exec (.unassigned7 9) (boundary 0))).isSome = true := by decide

/-- `{AO, MI, RI}` with `a = 0x80`: it writes cell 0, and `pc = 0` fetches it next. -/
theorem test_witness_WrittenCellIsFetched :
    let s : State := { boundary 0 with pc := 0 }
    let w : ControlWord := .ofFlags [.ao, .mi, .ri]
    w.wellFormed = true ∧ s.mem.wf = true ∧ w.ri = true ∧ w.hlt = false ∧ s.AtBoundary ∧
    (nextOf (applyWord w s)).map (fun t => decide (t.pc = t.addr)) = some true :=
  ⟨by decide, by decide, by decide, by decide, ⟨rfl, rfl⟩, by decide⟩

theorem test_witness_RunWithoutHaltCellsNeverEnds :
    (boundary 0x6E).AtBoundary ∧ ∀ n : Nib, opcodeField (memRead (boundary 0x6E).mem n) ≠ Config.opc .halt :=
  ⟨⟨rfl, rfl⟩, by decide⟩

theorem test_witness_JumpToItselfNeverEnds :
    (boundary 0x6F).AtBoundary ∧ memRead (boundary 0x6F).mem (boundary 0x6F).pc = cellOf (Config.opc .jmp) (boundary 0x6F).pc :=
  ⟨⟨rfl, rfl⟩, by decide⟩

end Sys2Proof.Tests
end

section
/-!
PROOFS. The state family: what a word, a pulse and a step do to each piece of state, said once, and the statements about the
registers, the bus and the safe states (spec/10_state.md).
-/

namespace Sys2Proof.Machine

/-! ## Widths -/

/-- A nibble widened to the bus and cut again is itself (R66, R77). -/
@[simp] theorem trunc4_zext8 (n : Nib) : trunc4 (zext8 n) = n := by
  revert n; decide

/-- Widening keeps an address's number (R8). -/
@[simp] theorem zext8_toNat (n : Nib) : (zext8 n).toNat = n.toNat := by
  revert n; decide

/-- The low nibble as a number (R8). -/
@[simp] theorem trunc4_toNat (v : Byte) : (trunc4 v).toNat = v.toNat % 16 := by
  simp [trunc4]

/-- The low nibble of a byte, widened again, is the byte masked (R71). -/
theorem zext8_trunc4 (v : Byte) : zext8 (trunc4 v) = v &&& 0x0F := by
  revert v; decide

/-- The operand reaches the bus as `ir & 0x0F` (R49, R64). -/
theorem operandByte_eq_and (s : State) : s.operandByte = s.ir &&& 0x0F := zext8_trunc4 s.ir

/-- Encoding the decoded cell gives the cell back (R52). -/
@[simp] theorem encodeCell_decodeCell (cell : Byte) : encodeCell (decodeCell cell) = cell := by
  change cellOf (decodeCell cell).opcode (decodeCell cell).operand = cell
  rw [opcode_decodeCell, operand_decodeCell, cellOf_fields]

/-- Decoding the cell of an instruction gives the instruction back (R48, R50). -/
@[simp] theorem decodeCell_encodeCell (i : Instr) : decodeCell (encodeCell i) = i := by
  cases i <;> decide +revert

/-- An instruction is its opcode and its operand (R48). -/
theorem instr_eq_of_fields {i j : Instr} (hop : i.opcode = j.opcode) (hn : i.operand = j.operand) : i = j := by
  have hcell : encodeCell i = encodeCell j := congrArg₂ cellOf hop hn
  rw [← decodeCell_encodeCell i, hcell, decodeCell_encodeCell]

/-- Only the ADD rows have ADD's opcode (R50, R51). -/
theorem opcode_eq_add_iff (i : Instr) : i.opcode = Config.opc .add ↔ ∃ n, i = .add n :=
  ⟨fun h => ⟨i.operand, instr_eq_of_fields h rfl⟩, fun ⟨_, hi⟩ => by rw [hi]; rfl⟩

/-- Only the JMP rows have JMP's opcode (R50, R51). -/
theorem opcode_eq_jmp_iff (i : Instr) : i.opcode = Config.opc .jmp ↔ ∃ n, i = .jmp n :=
  ⟨fun h => ⟨i.operand, instr_eq_of_fields h rfl⟩, fun ⟨_, hi⟩ => by rw [hi]; rfl⟩

/-! ## One control word -/

/-- `applyWord` answers a next state exactly for a well-formed word, and then `wordState` (R58, R61). -/
theorem applyWord_eq_next_iff {cw : ControlWord} {s t : State} :
    applyWord cw s = .next t ↔ cw.wellFormed = true ∧ t = wordState cw s := by
  cases h : cw.wellFormed with
  | true => simp [applyWord_of_wellFormed cw s h, eq_comm]
  | false => simp [applyWord_of_not_wellFormed cw s h]

/-- A word with no output flag leaves the bus `undef` (R21). -/
theorem wordBus_of_outputs_zero {cw : ControlWord} (s : State) (h : cw.outputs = 0) : wordBus cw s = none := by
  have hsome := wordBus_isSome (cw := cw) s (by omega)
  simpa [h] using hsome

/-- What each input flag of a well-formed word takes is the value the word leaves on the bus (R69 to R74). -/
theorem wordState_inputs {cw : ControlWord} (s : State) (h : cw.wellFormed = true) :
    (cw.bi = true → wordBus cw s = some (wordState cw s).b) ∧
    (cw.oi = true → wordBus cw s = some (wordState cw s).out) ∧
    (cw.mi = true → ∃ v, wordBus cw s = some v ∧ (wordState cw s).addr = trunc4 v) ∧
    (cw.ri = true → ∃ v, wordBus cw s = some v ∧ (wordState cw s).mem = memWrite s.mem (wordState cw s).addr v) ∧
    (cw.ii = true → wordBus cw s = some (wordState cw s).ir) ∧
    (cw.ai = true → wordBus cw s = some (wordState cw s).a) := by
  refine ⟨?_, ?_, ?_, ?_, ?_, ?_⟩ <;> intro hf <;>
    obtain ⟨v, hv⟩ := wordBus_of_reads s h (by simp [ControlWord.readsBus, hf]) <;> simp [hf, hv]

/-- A register or a cell keeps what it held, unless its flag finds a value on the bus. -/
theorem take_cases {α : Type} (flag : Bool) (bus : Option Byte) (f : Byte → α) (old : α) :
    take flag bus f old = old ∨ ∃ v, take flag bus f old = f v := by
  cases flag with
  | false => exact .inl rfl
  | true =>
    cases bus with
    | none => exact .inl rfl
    | some v => exact .inr ⟨v, rfl⟩

/-- The memory after a word: kept, or with one byte stored at the `addr` the word leaves (R72, R33). -/
theorem wordState_mem_cases (cw : ControlWord) (s : State) :
    (wordState cw s).mem = s.mem ∨ ∃ v, (wordState cw s).mem = memWrite s.mem (wordState cw s).addr v :=
  take_cases cw.ri (wordBus cw s) _ s.mem

/-- A word keeps the memory canonical (R28). -/
theorem wordState_mem_wf (cw : ControlWord) {s : State} (h : s.mem.wf = true) : (wordState cw s).mem.wf = true := by
  obtain hm | ⟨v, hm⟩ := wordState_mem_cases cw s
  · rw [hm]; exact h
  · rw [hm]; exact memWrite_wf _ v h

/-- A word changes at most the cell of the `addr` it leaves (R72, R33). -/
theorem memRead_wordState_other (cw : ControlWord) (s : State) {n : Nib} (hn : n ≠ (wordState cw s).addr) :
    memRead (wordState cw s).mem n = memRead s.mem n := by
  obtain hm | ⟨v, hm⟩ := wordState_mem_cases cw s
  · rw [hm]
  · rw [hm, memRead_memWrite_other v hn]

@[simp] theorem State.setB_self (s : State) : s.setB s.b = s := rfl
@[simp] theorem State.setIr_self (s : State) : s.setIr s.ir = s := rfl

/-- No word reads the old bus: the cycle starts by making it `undef` (R20, R21). -/
theorem applyWord_setBus (cw : ControlWord) (s : State) (v : Option Byte) :
    applyWord cw (s.setBus v) = applyWord cw s := rfl

/-- No word reads `out`: what it held stays, or OI overwrites it (R19). -/
theorem wordState_setOut {cw : ControlWord} (s : State) (v : Byte) (h : cw.wellFormed = true) :
    wordState cw (s.setOut v) = if cw.oi then wordState cw s else (wordState cw s).setOut v := by
  have hb : wordBus cw (s.setOut v) = wordBus cw s := rfl
  cases hoi : cw.oi with
  | false => simp only [wordState, hb, hoi, take_false]; rfl
  | true =>
    obtain ⟨w, hw⟩ := wordBus_of_reads s h (by simp [ControlWord.readsBus, hoi])
    simp only [wordState, hb, hoi, hw, take_true_some]; rfl

/-- A word without EO does not read `b`: what it held stays, or BI overwrites it (R15, R67). -/
theorem wordState_setB {cw : ControlWord} (s : State) (v : Byte) (h : cw.wellFormed = true) (heo : cw.eo = false) :
    wordState cw (s.setB v) = if cw.bi then wordState cw s else (wordState cw s).setB v := by
  have hb : wordBus cw (s.setB v) = wordBus cw s := by simp only [wordBus, heo]; rfl
  cases hbi : cw.bi with
  | false => simp only [wordState, hb, hbi, take_false]; rfl
  | true =>
    obtain ⟨w, hw⟩ := wordBus_of_reads s h (by simp [ControlWord.readsBus, hbi])
    simp only [wordState, hb, hbi, hw, take_true_some]; rfl

/-- No word reads the opcode nibble of `ir`: what `ir` held stays, or II overwrites it (R18). -/
theorem wordState_setIr {cw : ControlWord} (s : State) {c : Byte} (h : cw.wellFormed = true)
    (hc : operandField c = operandField s.ir) :
    wordState cw (s.setIr c) = if cw.ii then wordState cw s else (wordState cw s).setIr c := by
  have hop : (s.setIr c).operandByte = s.operandByte := congrArg zext8 hc
  have hb : wordBus cw (s.setIr c) = wordBus cw s := by simp only [wordBus, hop]; rfl
  cases hii : cw.ii with
  | false => simp only [wordState, hb, hii, take_false]; rfl
  | true =>
    obtain ⟨w, hw⟩ := wordBus_of_reads s h (by simp [ControlWord.readsBus, hii])
    simp only [wordState, hb, hii, hw, take_true_some]; rfl

/-! ## The words of the fetch and of the microcode -/

/-- F0 `{CO, MI}`: `pc` goes onto the bus and into `addr` (R90, R91). -/
theorem wordState_fetch0 (s : State) : wordState fetch0 s = { s with addr := s.pc, bus := some (zext8 s.pc) } := by
  change { s with addr := trunc4 (zext8 s.pc), bus := some (zext8 s.pc) } = _
  rw [trunc4_zext8]

/-- F1 `{RO, II}`: the cell of `addr` goes onto the bus and into `ir` (R90, R91). -/
theorem wordState_fetch1 (s : State) :
    wordState fetch1 s = { s with ir := memRead s.mem s.addr, bus := some (memRead s.mem s.addr) } := rfl

/-- F2 `{CE}`: `pc` moves on and the bus stays `undef` (R90, R91). -/
theorem wordState_fetch2 (s : State) : wordState fetch2 s = { s with pc := s.pc + 1, bus := none } := rfl

/-- `{IO, MI}`: the operand goes into `addr` (R83, R84). -/
theorem wordState_ioMi (s : State) : wordState (.ofFlags [.io, .mi]) s =
    { s with addr := operandField s.ir, bus := some s.operandByte } := by
  change { s with addr := trunc4 (zext8 (operandField s.ir)), bus := some s.operandByte } = _
  rw [trunc4_zext8]

/-- `{RO, BI}`: the cell of `addr` goes into `b` (R84). -/
theorem wordState_roBi (s : State) : wordState (.ofFlags [.ro, .bi]) s =
    { s with b := memRead s.mem s.addr, bus := some (memRead s.mem s.addr) } := rfl

/-- `{EO, AI}`: the sum goes into `a` (R84). -/
theorem wordState_eoAi (s : State) : wordState (.ofFlags [.eo, .ai]) s =
    { s with a := s.a + s.b, bus := some (s.a + s.b) } := rfl

/-- `{IO, J}`: the operand goes into `pc` (R85). -/
theorem wordState_ioJ (s : State) : wordState (.ofFlags [.io, .j]) s =
    { s with pc := operandField s.ir, bus := some s.operandByte } := by
  change { s with pc := trunc4 (zext8 (operandField s.ir)), bus := some s.operandByte } = _
  rw [trunc4_zext8]

/-! ## One pulse -/

/-- The step after any step is one of R26. -/
theorem SeqStep.next_legal (p : SeqStep) (after : State) : (p.next after).legal = true := by
  unfold SeqStep.next
  split
  · rfl
  · rfl
  · exact SeqStep.execFrom_legal _ _
  · exact SeqStep.execFrom_legal _ _

/-- All that a pulse can answer as a next state: nothing changes on a halted machine, and a running machine applies the word of
its sequencer step and moves on (R96, R99). -/
theorem pulse_cases {s t : State} {r : CycleResult} (h : pulse s = .next (t, r)) :
    (s.halted = true ∧ t = s ∧ r = .alreadyHalted) ∨
    (s.halted = false ∧ ∃ cw, s.seqStep.word = some cw ∧
      t = (wordState cw s).setSeqStep (s.seqStep.next (wordState cw s)) ∧ r = .applied cw t.snapshot) := by
  cases hs : s.halted with
  | true =>
    rw [pulse_of_halted hs] at h
    cases h
    exact .inl ⟨rfl, rfl, rfl⟩
  | false =>
    cases hw : s.seqStep.word with
    | none => simp [pulse, hs, hw] at h
    | some cw =>
      rw [pulse_of_running hs hw] at h
      cases h
      exact .inr ⟨rfl, cw, rfl, rfl, rfl⟩

/-- The pulse that applies F0. -/
theorem pulse_fetch0 {s : State} (h : s.halted = false) (hp : s.seqStep = .fetch 0) :
    ∃ r, pulse s = .next ({ s with addr := s.pc, bus := some (zext8 s.pc), seqStep := .fetch 1 }, r) := by
  rw [pulse_of_running (cw := fetch0) h (by rw [hp]; rfl), wordState_fetch0, hp]
  exact ⟨_, rfl⟩

/-- The pulse that applies F1. -/
theorem pulse_fetch1 {s : State} (h : s.halted = false) (hp : s.seqStep = .fetch 1) :
    ∃ r, pulse s = .next
      ({ s with ir := memRead s.mem s.addr, bus := some (memRead s.mem s.addr), seqStep := .fetch 2 }, r) := by
  rw [pulse_of_running (cw := fetch1) h (by rw [hp]; rfl), wordState_fetch1, hp]
  exact ⟨_, rfl⟩

/-- The pulse that applies F2 and latches the opcode (R92). -/
theorem pulse_fetch2 {s : State} (h : s.halted = false) (hp : s.seqStep = .fetch 2) :
    ∃ r, pulse s = .next
      ({ s with pc := s.pc + 1, bus := none, seqStep := SeqStep.execFrom s.opcodeNibble 0 }, r) := by
  rw [pulse_of_running (cw := fetch2) h (by rw [hp]; rfl), wordState_fetch2, hp]
  exact ⟨_, rfl⟩

/-- Three pulses from a boundary are the fetch, with the fetched cell's opcode latched (R91, R92). -/
theorem pulses_fetch {s : State} (h : s.AtBoundary) : pulses 3 s =
    .next (s.fetched.setSeqStep (SeqStep.execFrom (opcodeField (memRead s.mem s.pc)) 0)) := by
  obtain ⟨hrun, hp⟩ := h
  obtain ⟨r0, h0⟩ := pulse_fetch0 hrun hp
  obtain ⟨r1, h1⟩ := pulse_fetch1 (s := { s with addr := s.pc, bus := some (zext8 s.pc), seqStep := .fetch 1 }) hrun rfl
  obtain ⟨r2, h2⟩ := pulse_fetch2
    (s := { s with addr := s.pc, ir := memRead s.mem s.pc, bus := some (memRead s.mem s.pc), seqStep := .fetch 2 }) hrun rfl
  rw [pulses_succ, h0, andThen_next, pulses_succ, h1, andThen_next, pulses_succ, h2]
  rfl

/-! ## Lists of words -/

/-- A sequence of operations answers a next state when both parts do. -/
theorem andThen_eq_next_iff {α β : Type} {o : Host.Outcome α Fault Refusal} {f : α → Host.Outcome β Fault Refusal}
    {b : β} : andThen o f = .next b ↔ ∃ a, o = .next a ∧ f a = .next b := by
  cases o <;> simp [andThen]

/-- A halted machine applies no word (R99). -/
theorem runWords_of_halted (words : List ControlWord) {s : State} (h : s.halted = true) : runWords words s = .next s := by
  cases words with
  | nil => rfl
  | cons cw rest => rw [runWords, if_pos h]

/-- All that a nonempty list of words can answer as a next state. -/
theorem runWords_cons_cases {cw : ControlWord} {rest : List ControlWord} {s t : State}
    (h : runWords (cw :: rest) s = .next t) :
    (s.halted = true ∧ t = s) ∨
    (s.halted = false ∧ cw.wellFormed = true ∧ runWords rest (wordState cw s) = .next t) := by
  cases hs : s.halted with
  | true =>
    rw [runWords_of_halted _ hs] at h
    cases h
    exact .inl ⟨rfl, rfl⟩
  | false =>
    rw [runWords, if_neg (by simp [hs]), andThen_eq_next_iff] at h
    obtain ⟨u, hu, ht⟩ := h
    obtain ⟨hw, rfl⟩ := applyWord_eq_next_iff.mp hu
    exact .inr ⟨rfl, hw, ht⟩

/-- What every word of a list keeps, the list keeps. -/
theorem runWords_keeps {P : State → Prop} {words : List ControlWord} {s t : State}
    (hP : ∀ cw ∈ words, ∀ u, P u → P (wordState cw u)) (hs : P s) (h : runWords words s = .next t) : P t := by
  induction words generalizing s with
  | nil => cases h; exact hs
  | cons cw rest ih =>
    obtain ⟨-, rfl⟩ | ⟨-, -, ht⟩ := runWords_cons_cases h
    · exact hs
    · exact ih (fun c hc => hP c (List.mem_cons_of_mem _ hc)) (hP cw List.mem_cons_self s hs) ht

/-- Two lists of words run one after the other. -/
theorem runWords_append {xs ys : List ControlWord} {s u : State} (h : runWords xs s = .next u) :
    runWords (xs ++ ys) s = runWords ys u := by
  induction xs generalizing s with
  | nil => cases h; rfl
  | cons cw rest ih =>
    obtain ⟨hs, rfl⟩ | ⟨hs, hw, hu⟩ := runWords_cons_cases h
    · rw [runWords_of_halted _ hs, runWords_of_halted _ hs]
    · rw [List.cons_append, runWords_cons _ hs hw, ih hu]

/-- All that finishing an instruction can answer as a next state. -/
theorem finishWords_eq_next_iff {words : List ControlWord} {s t : State} :
    finishWords words s = .next t ↔ ∃ u, runWords words s = .next u ∧ t = u.setSeqStep (.fetch 0) := by
  simp [finishWords, andThen_eq_next_iff, eq_comm (a := t)]

/-- The first word of a list to finish, on a running machine. -/
theorem finishWords_cons {s : State} {cw : ControlWord} (rest : List ControlWord) (h : s.halted = false)
    (hw : cw.wellFormed = true) : finishWords (cw :: rest) s = finishWords rest (wordState cw s) := by
  rw [finishWords, runWords_cons rest h hw, finishWords]

/-- A list of words that begins with one forgets the old bus. -/
theorem runWords_cons_setBus {cw : ControlWord} (rest : List ControlWord) {s : State} (v : Option Byte)
    (h : s.halted = false) : runWords (cw :: rest) (s.setBus v) = runWords (cw :: rest) s := by
  simp [runWords, h, applyWord_setBus]

/-- No list of words reads `out` (R19). -/
theorem runWords_setOut {words : List ControlWord} {s t : State} (v : Byte) (h : runWords words s = .next t) :
    ∃ w : Byte, (w = v ∨ w = t.out) ∧ runWords words (s.setOut v) = .next (t.setOut w) := by
  induction words generalizing s with
  | nil => cases h; exact ⟨v, .inl rfl, rfl⟩
  | cons cw rest ih =>
    obtain ⟨hs, rfl⟩ | ⟨hs, hw, ht⟩ := runWords_cons_cases h
    · exact ⟨v, .inl rfl, runWords_of_halted _ hs⟩
    · rw [runWords_cons rest (s := s.setOut v) hs hw, wordState_setOut s v hw]
      cases cw.oi with
      | false => exact ih ht
      | true => exact ⟨t.out, .inr rfl, ht⟩

/-- Words without EO and BI neither read nor write `b` (R15). -/
theorem runWords_setB {words : List ControlWord} {s t : State} (v : Byte)
    (hb : ∀ cw ∈ words, cw.eo = false ∧ cw.bi = false) (h : runWords words s = .next t) :
    runWords words (s.setB v) = .next (t.setB v) := by
  induction words generalizing s with
  | nil => cases h; rfl
  | cons cw rest ih =>
    obtain ⟨hs, rfl⟩ | ⟨hs, hw, ht⟩ := runWords_cons_cases h
    · exact runWords_of_halted _ hs
    · obtain ⟨heo, hbi⟩ := hb cw List.mem_cons_self
      rw [runWords_cons rest (s := s.setB v) hs hw, wordState_setB s v hw heo, hbi]
      exact ih (fun c hc => hb c (List.mem_cons_of_mem _ hc)) ht

/-! ## One step -/

/-- The three fetch words in a row (R91). -/
theorem runWords_fetchWords {s : State} (h : s.halted = false) : runWords fetchWords s = .next s.fetched := by
  rw [fetchWords, runWords_cons _ h rfl, wordState_fetch0, runWords_cons _ (by exact h) rfl, wordState_fetch1,
    runWords_cons _ (by exact h) rfl, wordState_fetch2]
  rfl

/-- Between two instructions a step is the meaning of the cell at `pc`, on what the fetch leaves (R90, R91). -/
theorem step_of_boundary {s : State} (h : s.AtBoundary) :
    step s = exec (decodeCell (memRead s.mem s.pc)) s.fetched := by
  obtain ⟨hrun, hp⟩ := h
  rw [step, if_neg (by simp [hrun]), hp]
  simp only [Fin.val_zero, List.drop_zero, runWords_fetchWords hrun, andThen_next]
  rfl

/-- Running the instruction that `ir` holds needs no change of `ir`. -/
theorem exec_decodeCell_ir {s : State} (h : s.halted = false) :
    exec (decodeCell s.ir) s = finishWords (rom (opcodeField s.ir)) s := by
  rw [exec_of_running _ h, encodeCell_decodeCell, opcode_decodeCell, State.setIr_self]

/-- The cell of the instruction in progress: the cell F1 will fetch, or `ir` once it is there (R91). -/
def State.cellInProgress (s : State) : Byte :=
  match s.seqStep with
  | .fetch 0 => memRead s.mem s.pc
  | .fetch 1 => memRead s.mem s.addr
  | _ => s.ir

/-- The words that are left of the instruction in progress (R93). -/
def State.wordsLeft (s : State) : List ControlWord :=
  match s.seqStep with
  | .fetch i => fetchWords.drop i.val ++ rom (opcodeField s.cellInProgress)
  | .exec opc k => (rom opc).drop k

/-- The fetch words that are left bring the cell in progress into `ir` and do not halt (R91). -/
theorem runWords_fetchWords_drop {s : State} {i : Fin Config.fetchLen} (h : s.halted = false) (hp : s.seqStep = .fetch i) :
    ∃ u, runWords (fetchWords.drop i.val) s = .next u ∧ u.halted = false ∧ u.ir = s.cellInProgress := by
  match i with
  | 0 => exact ⟨s.fetched, runWords_fetchWords h, h, by simp [State.cellInProgress, hp, State.fetched]⟩
  | 1 =>
    refine ⟨wordState fetch2 (wordState fetch1 s), ?_, h,
      by simp [State.cellInProgress, hp, wordState_fetch1, wordState_fetch2]⟩
    change runWords [fetch1, fetch2] s = _
    rw [runWords_cons _ h rfl, runWords_cons _ (by exact h) rfl]
    rfl
  | 2 =>
    refine ⟨wordState fetch2 s, ?_, h, by simp [State.cellInProgress, hp, wordState_fetch2]⟩
    change runWords [fetch2] s = _
    rw [runWords_cons _ h rfl]
    rfl

/-- A step of a running machine applies the words that are left of the instruction in progress (R93, R95). -/
theorem step_of_running {s : State} (h : s.halted = false) (hl : s.seqStep.legal = true) :
    step s = finishWords s.wordsLeft s := by
  rw [step, if_neg (by simp [h])]
  cases hp : s.seqStep with
  | fetch i =>
    obtain ⟨u, hu, hrun, hir⟩ := runWords_fetchWords_drop h hp
    simp only [hu, andThen_next, exec_decodeCell_ir hrun, State.wordsLeft, hp]
    rw [finishWords, finishWords, runWords_append hu, hir]
  | exec op k =>
    rw [hp] at hl
    simp only [if_pos hl, State.wordsLeft, hp]

/-- A step of a halted machine changes nothing (R99). -/
theorem step_of_halted {s : State} (h : s.halted = true) : step s = .next s := by
  rw [step, if_pos h]

/-- All that a step can answer as a next state: nothing changes on a halted machine, and a running machine applies the words
that are left of the instruction and stands at the next fetch (R93, R99). -/
theorem step_cases {s t : State} (h : step s = .next t) :
    (s.halted = true ∧ t = s) ∨
    (s.halted = false ∧ s.seqStep.legal = true ∧
      ∃ u, runWords s.wordsLeft s = .next u ∧ t = u.setSeqStep (.fetch 0)) := by
  cases hs : s.halted with
  | true =>
    rw [step_of_halted hs] at h
    cases h
    exact .inl ⟨rfl, rfl⟩
  | false =>
    cases hl : s.seqStep.legal with
    | true =>
      rw [step_of_running hs hl] at h
      exact .inr ⟨rfl, rfl, finishWords_eq_next_iff.mp h⟩
    | false =>
      cases hp : s.seqStep with
      | fetch i => rw [hp] at hl; cases hl
      | exec op k =>
        rw [hp] at hl
        simp [step, hs, hp, hl] at h

/-! ## The meaning of an instruction -/

/-- All that a meaning can answer as a next state: nothing changes on a halted machine, and a running machine applies the words
of the instruction's opcode with its cell in `ir` (R93, R99). -/
theorem exec_cases {i : Instr} {s t : State} (h : exec i s = .next t) :
    (s.halted = true ∧ t = s) ∨
    (s.halted = false ∧
      ∃ u, runWords (rom i.opcode) (s.setIr (encodeCell i)) = .next u ∧ t = u.setSeqStep (.fetch 0)) := by
  cases hs : s.halted with
  | true =>
    rw [exec_of_halted i hs] at h
    cases h
    exact .inl ⟨rfl, rfl⟩
  | false =>
    rw [exec_of_running i hs] at h
    exact .inr ⟨rfl, finishWords_eq_next_iff.mp h⟩

/-- Only ADD's words read or write `b` (R80, R15). -/
theorem rom_leaves_b {op : Opcode} (h : op ≠ Config.opc .add) : ∀ cw ∈ rom op, cw.eo = false ∧ cw.bi = false := by
  revert op; decide

/-- Only JMP's words write `pc` (R80, R16). -/
theorem rom_leaves_pc {op : Opcode} (h : op ≠ Config.opc .jmp) : ∀ cw ∈ rom op, cw.ce = false ∧ cw.j = false := by
  revert op; decide

/-- ADD on a running machine, with all it leaves (R84). -/
theorem exec_add {s : State} (n : Operand) (h : s.halted = false) : exec (.add n) s = .next { s with
    ir := encodeCell (.add n), addr := n, b := memRead s.mem n, a := s.a + memRead s.mem n,
    bus := some (s.a + memRead s.mem n), seqStep := .fetch 0 } := by
  have hn : operandField (encodeCell (.add n)) = n := operandField_cellOf _ n
  rw [exec_of_running _ h]
  change finishWords [.ofFlags [.io, .mi], .ofFlags [.ro, .bi], .ofFlags [.eo, .ai]] _ = _
  rw [finishWords_cons _ (by exact h) rfl, wordState_ioMi, finishWords_cons _ (by exact h) rfl, wordState_roBi,
    finishWords_cons _ (by exact h) rfl, wordState_eoAi]
  simp only [State.setIr, hn]
  rfl

/-- JMP on a running machine, with all it leaves (R85). -/
theorem exec_jmp {s : State} (n : Operand) (h : s.halted = false) : exec (.jmp n) s = .next { s with
    ir := encodeCell (.jmp n), pc := n, bus := some (zext8 n), seqStep := .fetch 0 } := by
  have hn : operandField (encodeCell (.jmp n)) = n := operandField_cellOf _ n
  rw [exec_of_running _ h]
  change finishWords [.ofFlags [.io, .j]] _ = _
  rw [finishWords_cons _ (by exact h) rfl, wordState_ioJ]
  simp only [State.setIr, State.operandByte, hn]
  rfl

end Sys2Proof.Machine
end

section
/-!
PROOFS. The statements of the state family (spec/10_state.md), each from the lemmas before it.
-/

namespace Sys2Proof.Machine

/-! ## Safe states -/

/-- Every control word keeps a state safe: it stores at most one cell and does not move the sequencer (R26, R28). -/
theorem State.Safe.wordState {s : State} (h : s.Safe) (cw : ControlWord) : (wordState cw s).Safe := by
  obtain ⟨hmem, hseq⟩ := h
  exact ⟨wordState_mem_wf cw hmem, hseq⟩

/-- Moving the sequencer to a step of R26 keeps a state safe. -/
theorem State.Safe.setSeqStep {s : State} (h : s.Safe) {p : SeqStep} (hp : p.legal = true) : (s.setSeqStep p).Safe := by
  obtain ⟨hmem, -⟩ := h
  exact ⟨hmem, hp⟩

/-- Settles O23: a word keeps a state safe, and a step and a pulse are words followed by a move to a step of R26. -/
theorem safeStatesAreKept : Obligations.SafeStatesAreKept := by
  refine ⟨fun s t hs h => ?_, fun s t r hs h => ?_⟩
  · obtain ⟨-, rfl⟩ | ⟨-, -, u, hu, rfl⟩ := step_cases h
    · exact hs
    · have hsafe : u.Safe := runWords_keeps (fun cw _ _ hv => hv.wordState cw) hs hu
      exact hsafe.setSeqStep rfl
  · obtain ⟨-, rfl, -⟩ | ⟨-, cw, -, rfl, -⟩ := pulse_cases h
    · exact hs
    · exact (hs.wordState cw).setSeqStep (SeqStep.next_legal _ _)

/-- Settles O22: storing 0 in every cell of the empty memory lists no cell. -/
theorem resetMeetsTheInvariants : Obligations.ResetMeetsTheInvariants := by
  have himg : Memory.ofImage (fun _ => 0) = [] := by decide
  refine ⟨?_, ⟨reset_mem_wf, rfl⟩, fun _ => rfl, trivial⟩
  rw [State.new, himg]
  rfl

/-! ## One control word -/

/-- Settles O12: `wordState` field by field. -/
theorem wordFrame : Obligations.WordFrame := by
  intro cw s h
  refine ⟨wordState cw s, applyWord_of_wellFormed cw s h, fun hce hj => ?_, fun hmi => ?_, fun hii => ?_, fun hai => ?_,
    fun hbi => ?_, fun hoi => ?_, fun hhlt => ?_, rfl, fun hri => ?_, fun n hn => memRead_wordState_other cw s hn,
    wordBus_of_outputs_zero s⟩
  · simp [hce, hj]
  · simp [hmi]
  · simp [hii]
  · simp [hai]
  · simp [hbi]
  · simp [hoi]
  · simp [hhlt]
  · simp [hri]

/-- Settles O14: a word starts by making the bus `undef`, so a pulse, and a step whose first word is F0, forget what it held. -/
theorem busHoldsNothingFromEarlierCycles : Obligations.BusHoldsNothingFromEarlierCycles := by
  refine ⟨fun cw s h => ?_, applyWord_setBus, fun s v hrun => ⟨?_, fun hp => ?_⟩⟩
  · obtain ⟨hb, ho, hm, hr, hi, ha⟩ := wordState_inputs s h
    refine ⟨wordState cw s, applyWord_of_wellFormed cw s h, wordBus_isSome s (outputs_le_one h), hb, ho, fun hmi => ?_,
      hr, hi, ha⟩
    obtain ⟨v, hv, haddr⟩ := hm hmi
    exact ⟨v, hv, by rw [haddr, trunc4_toNat]⟩
  · simp [pulse, hrun, applyWord_setBus]
  · have hwords : runWords fetchWords (s.setBus v) = runWords fetchWords s := runWords_cons_setBus _ v hrun
    simp [step, hrun, hp, hwords]

/-- Settles O15: the sum-out handler reads the SU of its own word, and nothing else reads SU. -/
theorem subtractIsNotSticky : Obligations.SubtractIsNotSticky := by
  refine ⟨fun cw s h heo => ?_, fun cw s x h heo => ?_, fun _ next _ t _ h heo hsu => ?_⟩
  · obtain ⟨-, -, -, -, hsum⟩ := wordBus_of_output s (outputs_le_one h)
    exact ⟨_, applyWord_of_wellFormed cw s h, hsum heo⟩
  · have hbus : wordBus { cw with su := x } s = wordBus cw s := by simp only [wordBus, heo]; rfl
    rw [applyWord_of_wellFormed cw s h, applyWord_of_wellFormed { cw with su := x } s h]
    simp only [wordState, hbus]
  · obtain ⟨-, -, -, -, hsum⟩ := wordBus_of_output t (outputs_le_one h)
    exact ⟨_, applyWord_of_wellFormed next t h, by rw [wordState_bus, hsum heo, hsu]; rfl⟩

/-- Settles O17: address-in keeps the low nibble, RAM-out reads and RAM-in writes the cell of `addr`. -/
theorem addressLatch : Obligations.AddressLatch := by
  intro cw s h hmem
  obtain ⟨-, -, hm, hr, -, -⟩ := wordState_inputs s h
  obtain ⟨hro, -, -, -, -⟩ := wordBus_of_output s (outputs_le_one h)
  refine ⟨wordState cw s, applyWord_of_wellFormed cw s h, fun hmi => ?_, fun hmi => ?_, hro, fun hri hmi => ?_⟩
  · obtain ⟨v, hv, haddr⟩ := hm hmi
    exact ⟨v, hv, by rw [haddr]; exact zext8_trunc4 v⟩
  · simp [hmi]
  · have haddr : (wordState cw s).addr = s.addr := by simp [hmi]
    obtain ⟨v, hv, hstore⟩ := hr hri
    refine ⟨?_, fun n hn => memRead_wordState_other cw s (by rwa [haddr])⟩
    rw [wordState_bus, hv, hstore, haddr, memRead_memWrite_same _ v hmem]

/-- Settles O18: F1 fills `ir`, IO puts its operand on the bus, and only the latch after F2 reads its opcode. -/
theorem instructionRegister : Obligations.InstructionRegister := by
  refine ⟨fun s hrun hp => ?_, fun cw s h hio => ?_, fun cw s t op ht => ?_, fun s hrun hp => ?_⟩
  · obtain ⟨r, hr⟩ := pulse_fetch1 hrun hp
    exact ⟨_, hr, rfl⟩
  · obtain ⟨-, hop, -, -, -⟩ := wordBus_of_output s (outputs_le_one h)
    exact ⟨_, applyWord_of_wellFormed cw s h, by rw [wordState_bus, hop hio, operandByte_eq_and]⟩
  · obtain ⟨h, rfl⟩ := applyWord_eq_next_iff.mp ht
    rw [applyWord_of_wellFormed cw _ h, wordState_setIr s h (operandField_cellOf op _)]
  · obtain ⟨r, hr⟩ := pulse_fetch2 hrun hp
    refine ⟨_, hr, ?_⟩
    change SeqStep.execFrom s.opcodeNibble 0 = _
    rw [SeqStep.execFrom, State.opcodeNibble, opcodeField]

/-! ## The output latch and register B -/

/-- A pulse reads no `out`: another value there stays, or is overwritten as it would have been (R19). -/
theorem pulse_setOut {s t : State} {r : CycleResult} (v : Byte) (h : pulse s = .next (t, r)) :
    ∃ (w : Byte) (r' : CycleResult), (w = v ∨ w = t.out) ∧ pulse (s.setOut v) = .next (t.setOut w, r') ∧
      (r = .alreadyHalted → r' = .alreadyHalted) ∧
      ∀ cw snap, r = .applied cw snap → r' = .applied cw (t.setOut w).snapshot := by
  obtain ⟨hs, rfl, rfl⟩ | ⟨hs, cw, hw, rfl, rfl⟩ := pulse_cases h
  · exact ⟨v, .alreadyHalted, .inl rfl, pulse_of_halted hs, fun _ => rfl, fun _ _ hr => by cases hr⟩
  · have hpulse := pulse_of_running (s := s.setOut v) hs hw
    rw [wordState_setOut s v (SeqStep.word_wellFormed hw)] at hpulse
    cases hoi : cw.oi with
    | false =>
      rw [hoi] at hpulse
      exact ⟨v, _, .inl rfl, hpulse, nofun, fun _ _ hr => by cases hr; rfl⟩
    | true =>
      rw [hoi] at hpulse
      exact ⟨_, _, .inr rfl, hpulse, nofun, fun _ _ hr => by cases hr; rfl⟩

/-- A step reads no `out` (R19). -/
theorem step_setOut {s t : State} (v : Byte) (h : step s = .next t) :
    ∃ w : Byte, (w = v ∨ w = t.out) ∧ step (s.setOut v) = .next (t.setOut w) := by
  obtain ⟨hs, rfl⟩ | ⟨hs, hl, u, hu, rfl⟩ := step_cases h
  · exact ⟨v, .inl rfl, step_of_halted hs⟩
  · obtain ⟨w, hw, hwords⟩ := runWords_setOut v hu
    refine ⟨w, hw, ?_⟩
    rw [step_of_running (s := s.setOut v) hs hl, finishWords_eq_next_iff]
    exact ⟨_, hwords, rfl⟩

/-- Settles O19: OI alone writes `out`, and no word, pulse or step reads it. -/
theorem outputLatchIsReadByNothing : Obligations.OutputLatchIsReadByNothing := by
  refine ⟨fun cw s h => ?_, fun cw s t v ht => ?_, fun _ _ _ v h => pulse_setOut v h, fun _ _ v h => step_setOut v h,
    fun _ => rfl⟩
  · obtain ⟨-, hout, -⟩ := wordState_inputs s h
    exact ⟨_, applyWord_of_wellFormed cw s h, hout, fun hoi => by simp [hoi]⟩
  · obtain ⟨h, rfl⟩ := applyWord_eq_next_iff.mp ht
    rw [applyWord_of_wellFormed cw _ h, wordState_setOut s v h]

/-- ADD fills `b` before it reads it, so what `b` held does not matter (R15, R84). -/
theorem exec_add_setB {s : State} (n : Operand) (v : Byte) (h : s.halted = false) :
    exec (.add n) (s.setB v) = exec (.add n) s := by
  rw [exec_add (s := s.setB v) n h, exec_add n h]
  rfl

/-- Every instruction but ADD leaves `b` alone and does not read it (R15). -/
theorem exec_setB {i : Instr} {s t : State} (v : Byte) (hi : ∀ n, i ≠ .add n) (h : exec i s = .next t) :
    exec i (s.setB v) = .next (t.setB v) := by
  have hop : i.opcode ≠ Config.opc .add := fun e => (opcode_eq_add_iff i).mp e |>.elim hi
  obtain ⟨hs, rfl⟩ | ⟨hs, u, hu, rfl⟩ := exec_cases h
  · exact exec_of_halted i hs
  · rw [exec_of_running (s := s.setB v) i hs, finishWords_eq_next_iff]
    exact ⟨_, runWords_setB v (rom_leaves_b hop) hu, rfl⟩

/-- What `b` held before an instruction changes at most `b` after it (R15). -/
theorem exec_setB_only_b (i : Instr) (s t : State) (v : Byte) (h : exec i s = .next t) :
    ∃ w : Byte, exec i (s.setB v) = .next (t.setB w) ∧
      (s.halted = false → ∀ n, i = .add n → w = t.b) ∧ ((s.halted = true ∨ ∀ n, i ≠ .add n) → w = v) := by
  by_cases hadd : ∃ n, i = .add n
  · obtain ⟨n, rfl⟩ := hadd
    cases hs : s.halted with
    | true =>
      rw [exec_of_halted _ hs] at h
      cases h
      exact ⟨v, exec_of_halted _ hs, nofun, fun _ => rfl⟩
    | false =>
      refine ⟨t.b, by rw [exec_add_setB n v hs, h, State.setB_self], fun _ _ _ => rfl, ?_⟩
      rintro (hfalse | hne)
      · cases hfalse
      · exact absurd rfl (hne n)
  · have hne : ∀ n, i ≠ .add n := not_exists.mp hadd
    exact ⟨v, exec_setB v hne h, fun _ n hi => absurd hi (hne n), fun _ => rfl⟩

/-- Settles O20: the fetch keeps `b`, and of the instructions only ADD reads it, after writing it. -/
theorem registerBNeverInfluencesAnInstruction : Obligations.RegisterBNeverInfluencesAnInstruction := by
  refine ⟨exec_setB_only_b, fun s t v hs h => ?_⟩
  have hrun : s.halted = false := hs.1
  have hadd := opcode_eq_add_iff (decodeCell (memRead s.mem s.pc))
  rw [opcode_decodeCell] at hadd
  rw [step_of_boundary hs] at h
  obtain ⟨w, hw, hsame, hkeep⟩ := exec_setB_only_b _ _ t v h
  refine ⟨w, by rw [step_of_boundary (s := s.setB v) hs]; exact hw, fun hop => ?_, fun hop => ?_⟩
  · obtain ⟨n, hn⟩ := hadd.mp hop
    exact hsame hrun n hn
  · exact hkeep (.inr fun n hn => hop (hadd.mpr ⟨n, hn⟩))

/-! ## The program counter -/

/-- In the execute phase every instruction but JMP keeps `pc` (R16). -/
theorem exec_keeps_pc {i : Instr} {s t : State} (hi : i.opcode ≠ Config.opc .jmp) (h : exec i s = .next t) :
    t.pc = s.pc := by
  obtain ⟨-, rfl⟩ | ⟨-, u, hu, rfl⟩ := exec_cases h
  · rfl
  · have hword : ∀ cw ∈ rom i.opcode, ∀ x : State, x.pc = s.pc → (wordState cw x).pc = s.pc := fun cw hcw x hx => by
      obtain ⟨hce, hj⟩ := rom_leaves_pc hi cw hcw
      simp [hce, hj, hx]
    exact runWords_keeps (P := fun x => x.pc = s.pc) (s := s.setIr (encodeCell i)) (t := u) hword rfl hu

/-- Settles O52: F0 copies `pc`, F2 increments it, and of the execute words only JMP's write it. -/
theorem programCounterOverAnInstruction : Obligations.ProgramCounterOverAnInstruction := by
  refine ⟨fun s hs => ?_, fun s hs => ?_, fun i s hs => ?_⟩
  · obtain ⟨hrun, hp⟩ := hs
    obtain ⟨r, hr⟩ := pulse_fetch0 hrun hp
    exact ⟨_, hr, rfl, rfl, _, rfl, zext8_toNat s.pc⟩
  · refine ⟨_, pulses_fetch hs, rfl, ?_⟩
    change (s.pc + 1).toNat = _
    rw [BitVec.toNat_add]
    rfl
  · by_cases hop : i.opcode = Config.opc .jmp
    · obtain ⟨n, rfl⟩ := (opcode_eq_jmp_iff i).mp hop
      exact ⟨_, exec_jmp n hs, fun hne => absurd rfl (hne n), fun m hm => by cases hm; rfl⟩
    · obtain ⟨t, ht⟩ := exec_completes i s
      exact ⟨t, ht, fun _ => exec_keeps_pc hop ht, fun n hn => absurd ((opcode_eq_jmp_iff i).mpr ⟨n, hn⟩) hop⟩

end Sys2Proof.Machine
end

section
/-!
PROOFS. The statements of the memory family (spec/20_memory.md): only RAM-out reads a cell, only RAM-in writes one, and no word
of the fixed block has RAM-in.
-/

namespace Sys2Proof.Machine

/-! ## One control word -/

/-- A word without RO puts the same value on the bus whatever the memory holds (R63). -/
theorem wordBus_setMem {cw : ControlWord} (s : State) (m : Memory) (hro : cw.ro = false) :
    wordBus cw (s.setMem m) = wordBus cw s := by
  simp only [wordBus, hro]
  rfl

/-- A word without RO leaves the same state whatever the memory holds, but for the memory itself (R31, R32). -/
theorem wordState_setMem {cw : ControlWord} (s : State) (m : Memory) (hro : cw.ro = false) :
    wordState cw (s.setMem m) = (wordState cw s).setMem (wordState cw (s.setMem m)).mem := by
  simp only [wordState, wordBus_setMem s m hro]
  rfl

/-- A word without RI keeps the memory (R72). -/
theorem wordState_keeps_mem {cw : ControlWord} (s : State) (hri : cw.ri = false) : (wordState cw s).mem = s.mem := by
  rw [wordState_mem, hri, take_false]

/-- After a word with RI the cell of `addr` holds the value on the bus (R72, R33). -/
theorem memRead_wordState_addr {cw : ControlWord} {s : State} (h : cw.wellFormed = true) (hmem : s.mem.wf = true)
    (hri : cw.ri = true) :
    ∃ v, (wordState cw s).bus = some v ∧ memRead (wordState cw s).mem (wordState cw s).addr = v := by
  obtain ⟨-, -, -, hstore, -, -⟩ := wordState_inputs s h
  obtain ⟨v, hv, hm⟩ := hstore hri
  exact ⟨v, hv, by rw [hm, memRead_memWrite_same _ v hmem]⟩

/-- Settles O13: without RO the bus, and with it every register, is free of the memory; RI stores at the `addr` the word leaves. -/
theorem memoryOnlyThroughRamHandlers : Obligations.MemoryOnlyThroughRamHandlers := by
  refine ⟨fun cw s t m hro ht => ?_, fun cw s t ht => ?_, fun cw s h hmem hri => ?_⟩
  · obtain ⟨h, rfl⟩ := applyWord_eq_next_iff.mp ht
    exact ⟨_, by rw [applyWord_of_wellFormed cw _ h, wordState_setMem s m hro]⟩
  · obtain ⟨h, rfl⟩ := applyWord_eq_next_iff.mp ht
    obtain ⟨hread, -⟩ := wordBus_of_output s (outputs_le_one h)
    exact ⟨hread, wordState_keeps_mem s⟩
  · obtain ⟨v, hv, hcell⟩ := memRead_wordState_addr h hmem hri
    exact ⟨_, v, applyWord_of_wellFormed cw s h, hv, hcell, fun _ => memRead_wordState_other cw s⟩

/-! ## The words of the fixed block -/

/-- No word of the ROM writes memory (R80, R33). -/
theorem rom_leaves_mem {op : Opcode} : ∀ cw ∈ rom op, cw.ri = false := by
  revert op; decide

/-- No fetch word writes memory (R90, R33). -/
theorem fetchWords_leave_mem : ∀ cw ∈ fetchWords, cw.ri = false := by decide

/-- The word of a sequencer step does not write memory. -/
theorem SeqStep.word_leaves_mem {p : SeqStep} {cw : ControlWord} (h : p.word = some cw) : cw.ri = false := by
  cases p with
  | fetch i => exact fetchWords_leave_mem cw (List.mem_of_getElem? h)
  | exec op k => exact rom_leaves_mem cw (List.mem_of_getElem? h)

/-- None of the words left of an instruction writes memory. -/
theorem State.wordsLeft_leave_mem (s : State) : ∀ cw ∈ s.wordsLeft, cw.ri = false := by
  intro cw hcw
  rw [State.wordsLeft] at hcw
  split at hcw
  · obtain hf | hr := List.mem_append.mp hcw
    · exact fetchWords_leave_mem cw (List.mem_of_mem_drop hf)
    · exact rom_leaves_mem cw hr
  · exact rom_leaves_mem cw (List.mem_of_mem_drop hcw)

/-- Words without RI keep the memory. -/
theorem runWords_keeps_mem {words : List ControlWord} {s t : State} (hri : ∀ cw ∈ words, cw.ri = false)
    (h : runWords words s = .next t) : t.mem = s.mem :=
  runWords_keeps (P := fun u => u.mem = s.mem)
    (fun cw hcw u hu => (wordState_keeps_mem u (hri cw hcw)).trans hu) rfl h

/-- Settles O26: a step and a pulse apply fetch words and ROM words, and none of these has RI. -/
theorem memoryNeverChangesInARun : Obligations.MemoryNeverChangesInARun := by
  refine ⟨fun s t h => ?_, fun s t r h => ?_⟩
  · obtain ⟨-, rfl⟩ | ⟨-, -, u, hu, rfl⟩ := step_cases h
    · rfl
    · have hmem : u.mem = s.mem := runWords_keeps_mem s.wordsLeft_leave_mem hu
      exact hmem
  · obtain ⟨-, rfl, -⟩ | ⟨-, cw, hw, rfl, -⟩ := pulse_cases h
    · rfl
    · exact wordState_keeps_mem s (SeqStep.word_leaves_mem hw)

/-! ## The fetch of a written cell -/

/-- Two pulses from a boundary bring the cell at `pc` into `ir` (R90, R91). -/
theorem pulses_two_ir {s : State} (h : s.AtBoundary) : ∃ u, pulses 2 s = .next u ∧ u.ir = memRead s.mem s.pc := by
  obtain ⟨hrun, hp⟩ := h
  obtain ⟨r0, h0⟩ := pulse_fetch0 hrun hp
  obtain ⟨r1, h1⟩ := pulse_fetch1 (s := { s with addr := s.pc, bus := some (zext8 s.pc), seqStep := .fetch 1 }) hrun rfl
  exact ⟨_, by rw [pulses_succ, h0, andThen_next, pulses_succ, h1]; rfl, rfl⟩

/-- A word without HLT leaves a machine between two instructions there: it does not move the sequencer (R58). -/
theorem State.AtBoundary.wordState {cw : ControlWord} {s : State} (h : s.AtBoundary) (hhlt : cw.hlt = false) :
    (wordState cw s).AtBoundary := by
  obtain ⟨hrun, hp⟩ := h
  exact ⟨by rw [wordState_halted, hhlt, hrun]; rfl, hp⟩

/-- Settles O54: RI stores the bus value at `addr`, and F0 and F1 read it back when `pc` names the same cell. -/
theorem writtenCellIsFetched : Obligations.WrittenCellIsFetched := by
  intro cw s h hmem hri hhlt hs
  obtain ⟨v, hv, hcell⟩ := memRead_wordState_addr h hmem hri
  refine ⟨_, v, applyWord_of_wellFormed cw s h, hv, fun hpc => ?_⟩
  obtain ⟨u, hu, hir⟩ := pulses_two_ir (hs.wordState hhlt)
  exact ⟨u, hu, by rw [hir, hpc, hcell]⟩

end Sys2Proof.Machine
end

section
/-!
PROOFS. The encoding family: cells and instructions under any injective opcode map (spec/30_encoding.md R47 to R52), control words
as numbers (R53, R54) and images (R55).
-/

namespace Sys2Proof

/-! ## The first match of a list -/

/-- When only one element of a list passes a test, the search for the first one finds it. -/
theorem find?_eq_some_of_unique {α : Type} {p : α → Bool} {xs : List α} {x : α} (hx : x ∈ xs) (hp : p x = true)
    (huniq : ∀ y ∈ xs, p y = true → y = x) : xs.find? p = some x := by
  obtain ⟨y, hy⟩ := Option.isSome_iff_exists.mp (List.find?_isSome.mpr ⟨x, hx, hp⟩)
  rw [hy, huniq y (List.mem_of_find?_eq_some hy) (List.find?_some hy)]

/-! ## The opcode map -/

/-- `Mnemonic.all` leaves out no mnemonic (R3). -/
@[simp] theorem Mnemonic.mem_all (m : Mnemonic) : m ∈ Mnemonic.all := by cases m <;> decide

/-- An opcode names no mnemonic exactly when the map does not assign it (R51). -/
theorem mnemonicOf_eq_none_iff {opc : Mnemonic → Opcode} {op : Opcode} :
    mnemonicOf opc op = none ↔ ∀ m, opc m ≠ op := by
  simp [mnemonicOf]

/-- An opcode that names a mnemonic is the one the map gives it (R50). -/
theorem opc_of_mnemonicOf {opc : Mnemonic → Opcode} {op : Opcode} {m : Mnemonic} (h : mnemonicOf opc op = some m) :
    opc m = op := by
  simpa using List.find?_some (p := fun k => opc k == op) h

/-- Under an injective map a mnemonic's opcode names it (R50). -/
theorem mnemonicOf_opc {opc : Mnemonic → Opcode} (hinj : Function.Injective opc) (m : Mnemonic) :
    mnemonicOf opc (opc m) = some m :=
  find?_eq_some_of_unique m.mem_all (beq_self_eq_true _) fun _ _ hk => hinj (eq_of_beq hk)

/-- Under an injective map every row is an instruction (R50). -/
theorem wellFormedFor_of_injective {opc : Mnemonic → Opcode} (hinj : Function.Injective opc) (i : Instr) :
    i.wellFormedFor opc = true := by
  simp only [Instr.wellFormedFor, opcInjective, List.all_eq_true, decide_eq_true_eq]
  exact fun _ _ _ _ h => hinj h

/-! ## The opcodes a map leaves over -/

@[simp] theorem mem_allOpcodes (op : Opcode) : op ∈ allOpcodes := by revert op; decide

theorem allOpcodes_nodup : allOpcodes.Nodup := by decide

/-- The opcodes left over are those the map does not assign (R51). -/
theorem mem_unassignedOpcodes {opc : Mnemonic → Opcode} {op : Opcode} :
    op ∈ unassignedOpcodes opc ↔ mnemonicOf opc op = none := by
  simp [unassignedOpcodes]

theorem unassignedOpcodes_nodup (opc : Mnemonic → Opcode) : (unassignedOpcodes opc).Nodup :=
  allOpcodes_nodup.filter _

/-- Ten opcodes are left over: with the six assigned ones they are the sixteen values, each once (R50, R51). -/
theorem length_unassignedOpcodes {opc : Mnemonic → Opcode} (hinj : Function.Injective opc) :
    (unassignedOpcodes opc).length = 10 := by
  have hassigned : (Mnemonic.all.map opc).Nodup := List.Nodup.map hinj (by decide)
  have hdisjoint : ∀ a ∈ unassignedOpcodes opc, ∀ b ∈ Mnemonic.all.map opc, a ≠ b := by
    intro a ha b hb
    obtain ⟨m, -, rfl⟩ := List.mem_map.mp hb
    exact (mnemonicOf_eq_none_iff.mp (mem_unassignedOpcodes.mp ha) m).symm
  have hcover : ∀ op, op ∈ unassignedOpcodes opc ++ Mnemonic.all.map opc ↔ op ∈ allOpcodes := by
    intro op
    have hem : (∀ m, opc m ≠ op) ∨ ∃ m, opc m = op := by simpa using em (∀ m, opc m ≠ op)
    simpa [mem_unassignedOpcodes, mnemonicOf_eq_none_iff] using hem
  have hperm : (unassignedOpcodes opc ++ Mnemonic.all.map opc).Perm allOpcodes :=
    (List.perm_ext_iff_of_nodup
      (List.nodup_append.mpr ⟨unassignedOpcodes_nodup opc, hassigned, hdisjoint⟩) allOpcodes_nodup).mpr hcover
  have hlen : (unassignedOpcodes opc).length + 6 = 16 := by simpa [Mnemonic.all, allOpcodes] using hperm.length_eq
  omega

/-- The `k`-th opcode left over, as an element of the list: the default is never taken. -/
theorem unassignedOpcode_eq_getElem {opc : Mnemonic → Opcode} {k : Nat} (hk : k < (unassignedOpcodes opc).length) :
    unassignedOpcode opc k = (unassignedOpcodes opc)[k] :=
  List.getD_eq_getElem _ _ hk

/-- The opcode of an unassigned row names no mnemonic (R51). -/
theorem mnemonicOf_unassignedOpcode {opc : Mnemonic → Opcode} (hinj : Function.Injective opc) {k : Nat} (hk : k < 10) :
    mnemonicOf opc (unassignedOpcode opc k) = none := by
  rw [← mem_unassignedOpcodes, unassignedOpcode_eq_getElem (by rwa [length_unassignedOpcodes hinj])]
  exact List.getElem_mem _

/-- The rank of the `k`-th opcode left over is `k`. -/
theorem idxOf_unassignedOpcode {opc : Mnemonic → Opcode} (hinj : Function.Injective opc) {k : Nat} (hk : k < 10) :
    (unassignedOpcodes opc).idxOf (unassignedOpcode opc k) = k := by
  have hk' : k < (unassignedOpcodes opc).length := by rwa [length_unassignedOpcodes hinj]
  rw [unassignedOpcode_eq_getElem hk', (unassignedOpcodes_nodup opc).idxOf_getElem k hk']

/-- An opcode left over is the one at its own rank, which is below ten. -/
theorem unassignedOpcode_idxOf {opc : Mnemonic → Opcode} (hinj : Function.Injective opc) {op : Opcode}
    (h : mnemonicOf opc op = none) :
    (unassignedOpcodes opc).idxOf op < 10 ∧ unassignedOpcode opc ((unassignedOpcodes opc).idxOf op) = op := by
  have hlt : (unassignedOpcodes opc).idxOf op < (unassignedOpcodes opc).length :=
    List.idxOf_lt_length_iff.mpr (mem_unassignedOpcodes.mpr h)
  exact ⟨by rwa [length_unassignedOpcodes hinj] at hlt, by rw [unassignedOpcode_eq_getElem hlt, List.getElem_idxOf]⟩

/-! ## The rows of the opcode table -/

/-- The row of a mnemonic, with operand `n` (R50). -/
def Mnemonic.row (m : Mnemonic) (n : Operand) : Instr :=
  match m with
  | .nop => .nop n
  | .lda => .lda n
  | .add => .add n
  | .jmp => .jmp n
  | .out => .out n
  | .halt => .halt n

/-- An instruction is the row of a mnemonic or one of the ten unassigned rows (R50, R51). -/
theorem Instr.row_cases (i : Instr) :
    (∃ m : Mnemonic, i = m.row i.operand) ∨ ∃ k < 10, i = unassignedRow k i.operand := by
  cases i with
  | nop n => exact .inl ⟨.nop, rfl⟩
  | lda n => exact .inl ⟨.lda, rfl⟩
  | add n => exact .inl ⟨.add, rfl⟩
  | jmp n => exact .inl ⟨.jmp, rfl⟩
  | out n => exact .inl ⟨.out, rfl⟩
  | halt n => exact .inl ⟨.halt, rfl⟩
  | unassigned3 n => exact .inr ⟨0, by decide, rfl⟩
  | unassigned4 n => exact .inr ⟨1, by decide, rfl⟩
  | unassigned5 n => exact .inr ⟨2, by decide, rfl⟩
  | unassigned7 n => exact .inr ⟨3, by decide, rfl⟩
  | unassigned8 n => exact .inr ⟨4, by decide, rfl⟩
  | unassigned9 n => exact .inr ⟨5, by decide, rfl⟩
  | unassignedA n => exact .inr ⟨6, by decide, rfl⟩
  | unassignedB n => exact .inr ⟨7, by decide, rfl⟩
  | unassignedC n => exact .inr ⟨8, by decide, rfl⟩
  | unassignedD n => exact .inr ⟨9, by decide, rfl⟩

/-- The cell of a mnemonic's row (R48, R50). -/
theorem encodeCellFor_row (opc : Mnemonic → Opcode) (m : Mnemonic) (n : Operand) :
    encodeCellFor opc (m.row n) = cellOf (opc m) n := by
  cases m <;> rfl

/-- The cell of an unassigned row (R48, R51). -/
theorem encodeCellFor_unassignedRow (opc : Mnemonic → Opcode) {k : Nat} (hk : k < 10) (n : Operand) :
    encodeCellFor opc (unassignedRow k n) = cellOf (unassignedOpcode opc k) n := by
  interval_cases k <;> rfl

/-- A cell whose opcode names a mnemonic decodes to that mnemonic's row (R50). -/
theorem decodeCellFor_of_some {opc : Mnemonic → Opcode} {cell : Byte} {m : Mnemonic}
    (h : mnemonicOf opc (opcodeField cell) = some m) : decodeCellFor opc cell = m.row (operandField cell) := by
  rw [decodeCellFor, h]
  cases m <;> rfl

/-- A cell whose opcode is left over decodes to the unassigned row of its rank (R51). -/
theorem decodeCellFor_of_none {opc : Mnemonic → Opcode} {cell : Byte} (h : mnemonicOf opc (opcodeField cell) = none) :
    decodeCellFor opc cell = unassignedRow ((unassignedOpcodes opc).idxOf (opcodeField cell)) (operandField cell) := by
  rw [decodeCellFor, h]

/-- Decoding the cell of an instruction gives the instruction back, under any injective map (R48, R50, R51). -/
theorem decodeCellFor_encodeCellFor {opc : Mnemonic → Opcode} (hinj : Function.Injective opc) (i : Instr) :
    decodeCellFor opc (encodeCellFor opc i) = i := by
  obtain ⟨m, hi⟩ | ⟨k, hk, hi⟩ := i.row_cases
  · rw [hi, encodeCellFor_row, decodeCellFor_of_some (m := m) (by rw [opcodeField_cellOf, mnemonicOf_opc hinj]),
      operandField_cellOf]
  · rw [hi, encodeCellFor_unassignedRow opc hk,
      decodeCellFor_of_none (by rw [opcodeField_cellOf, mnemonicOf_unassignedOpcode hinj hk]), opcodeField_cellOf,
      operandField_cellOf, idxOf_unassignedOpcode hinj hk]

/-- Encoding the decoded cell gives the cell back, under any injective map (R52). -/
theorem encodeCellFor_decodeCellFor {opc : Mnemonic → Opcode} (hinj : Function.Injective opc) (cell : Byte) :
    encodeCellFor opc (decodeCellFor opc cell) = cell := by
  cases h : mnemonicOf opc (opcodeField cell) with
  | some m => rw [decodeCellFor_of_some h, encodeCellFor_row, opc_of_mnemonicOf h, cellOf_fields]
  | none =>
    obtain ⟨hlt, hop⟩ := unassignedOpcode_idxOf hinj h
    rw [decodeCellFor_of_none h, encodeCellFor_unassignedRow opc hlt, hop, cellOf_fields]

/-- Settles O1: a row's opcode leads back to the row, by name for a mnemonic and by rank for an opcode left over. -/
theorem decodeAndEncodeAgree : Obligations.DecodeAndEncodeAgree := by
  refine ⟨fun opc hinj => ⟨fun i => ⟨?_, ?_⟩, ?_⟩, fun i rest _ => ?_, fun cell => ⟨?_, rfl⟩⟩
  · exact wellFormedFor_of_injective (fun _ _ => hinj _ _) i
  · exact decodeCellFor_encodeCellFor (fun _ _ => hinj _ _) i
  · exact encodeCellFor_decodeCellFor fun _ _ => hinj _ _
  · exact congrArg (fun j => Except.ok (j, rest)) (Machine.decodeCell_encodeCell i)
  · exact congrArg (fun c => [c]) (Machine.encodeCell_decodeCell cell)

/-- Settles O4: the ROM looks its opcode up in the map. -/
theorem romUnderEveryOpcodeMap : Obligations.RomUnderEveryOpcodeMap := by
  refine fun opc hinj => ⟨fun m => ?_, fun op hop => ?_⟩
  · rw [romFor, mnemonicOf_opc (fun _ _ => hinj _ _)]
  · rw [romFor, mnemonicOf_eq_none_iff.mpr hop]

/-! ## The layout of a cell -/

/-- `cell = (opcode << 4) | operand`, on bytes (R48). -/
theorem cellOf_eq_shift_or (op : Opcode) (n : Operand) : cellOf op n = op.setWidth 8 <<< 4 ||| n.setWidth 8 := by
  rw [cellOf, BitVec.append_def, BitVec.shiftLeftZeroExtend_eq, BitVec.setWidth'_eq]
  rfl

/-- Settles O2: the two fields of a cell, and the fetch, which leaves the cell in `ir` and latches its opcode. -/
theorem cellLayoutAndFetchedCell : Obligations.CellLayoutAndFetchedCell := by
  refine ⟨fun op n => ⟨cellOf_eq_shift_or op n, opcodeField_cellOf op n, operandField_cellOf op n⟩, fun s hs => ?_⟩
  exact ⟨_, Machine.pulses_fetch hs, rfl, rfl⟩

/-- Settles O3: the decoder run on each cell. -/
theorem handWrittenCellsDecode : Obligations.HandWrittenCellsDecode := by
  unfold Obligations.HandWrittenCellsDecode
  decide

/-! ## Control words as numbers -/

/-- `Flag.all` leaves out no flag (R54). -/
@[simp] theorem Flag.mem_all (f : Flag) : f ∈ Flag.all := by cases f <;> decide

/-- No two flags have the same bit (R54). -/
theorem Config.cwBit_injective : Function.Injective Config.cwBit := fun f g h =>
  List.inj_on_of_nodup_map (by decide : (Flag.all.map Config.cwBit).Nodup) f.mem_all g.mem_all h

/-- Every flag's bit is one of the number's bits (R54). -/
theorem Config.cwBit_lt (f : Flag) : Config.cwBit f < Config.numFlags := by cases f <;> decide

/-- Every bit of the number is some flag's (R54). -/
theorem Config.exists_cwBit_eq {i : Nat} (hi : i < Config.numFlags) : ∃ f, Config.cwBit f = i := by
  have h : ∀ i < Config.numFlags, ∃ f ∈ Flag.all, Config.cwBit f = i := by decide
  obtain ⟨f, -, hf⟩ := h i hi
  exact ⟨f, hf⟩

/-- Words that assert the same flags are equal (R53). -/
theorem ControlWord.ext_has {cw cw' : ControlWord} (h : ∀ f, cw.has f = cw'.has f) : cw = cw' := by
  cases cw
  cases cw'
  simp only [ControlWord.mk.injEq]
  exact ⟨h .ro, h .io, h .ao, h .co, h .eo, h .bi, h .oi, h .mi, h .ri, h .ii, h .ai, h .hlt, h .ce, h .j, h .su⟩

/-- The word of a list of flags asserts exactly those (R53). -/
theorem ControlWord.has_ofFlags (fs : List Flag) (f : Flag) : (ControlWord.ofFlags fs).has f = fs.elem f := by
  cases f <;> rfl

/-- One step of `toBits`: the number with `f`'s bit set, when the word asserts `f`. -/
def ControlWord.addBit (cw : ControlWord) (acc : BitVec Config.numFlags) (f : Flag) : BitVec Config.numFlags :=
  if cw.has f then acc ||| (1#Config.numFlags <<< Config.cwBit f) else acc

/-- A step of `toBits` touches the bit of its own flag alone. -/
theorem ControlWord.getLsbD_addBit (cw : ControlWord) (acc : BitVec Config.numFlags) (f g : Flag) :
    (cw.addBit acc g).getLsbD (Config.cwBit f) = (acc.getLsbD (Config.cwBit f) || (cw.has g && decide (g = f))) := by
  have hbit : (1#Config.numFlags <<< Config.cwBit g).getLsbD (Config.cwBit f) = decide (g = f) := by
    rw [← BitVec.twoPow_eq, BitVec.getLsbD_twoPow, decide_eq_true (Config.cwBit_lt g), Bool.true_and]
    exact decide_eq_decide.mpr Config.cwBit_injective.eq_iff
  rw [ControlWord.addBit]
  cases cw.has g with
  | true => rw [if_pos rfl, BitVec.getLsbD_or, hbit, Bool.true_and]
  | false => simp

/-- After some steps of `toBits` a flag's bit is set when it was, or when the flag is among the steps and asserted. -/
theorem ControlWord.getLsbD_foldl_addBit (cw : ControlWord) (fs : List Flag) (acc : BitVec Config.numFlags) (f : Flag) :
    (fs.foldl cw.addBit acc).getLsbD (Config.cwBit f) =
      (acc.getLsbD (Config.cwBit f) || (cw.has f && decide (f ∈ fs))) := by
  induction fs generalizing acc with
  | nil => simp
  | cons g fs ih =>
    rw [List.foldl_cons, ih, getLsbD_addBit]
    by_cases hg : g = f
    · subst hg
      cases cw.has g <;> simp
    · simp [hg, Ne.symm hg]

/-- Bit `Config.cwBit f` of a word's number is flag `f` (R54). -/
theorem ControlWord.getLsbD_toBits (cw : ControlWord) (f : Flag) : cw.toBits.getLsbD (Config.cwBit f) = cw.has f := by
  change (Flag.all.foldl cw.addBit 0).getLsbD (Config.cwBit f) = cw.has f
  simp [getLsbD_foldl_addBit]

/-- The word a number shows asserts `f` exactly when bit `Config.cwBit f` is set (R54). -/
theorem ControlWord.has_ofBits (v : BitVec Config.numFlags) (f : Flag) :
    (ControlWord.ofBits v).has f = v.getLsbD (Config.cwBit f) := by
  simp [ControlWord.ofBits, has_ofFlags]

/-- Settles O6: word and number agree flag by flag, and every bit of the number is a flag's. -/
theorem controlWordNumberRoundTrip : Obligations.ControlWordNumberRoundTrip := by
  refine ⟨fun cw => ControlWord.ext_has fun f => ?_, fun v => BitVec.eq_of_getLsbD_eq fun i hi => ?_,
    ControlWord.getLsbD_toBits⟩
  · rw [ControlWord.has_ofBits, ControlWord.getLsbD_toBits]
  · obtain ⟨f, rfl⟩ := Config.exists_cwBit_eq hi
    rw [ControlWord.getLsbD_toBits, ControlWord.has_ofBits]

end Sys2Proof
end

section
/-!
PROOFS. The statements of the encoding family about images and operands (spec/30_encoding.md R49, R52, R55).
-/

namespace Sys2Proof.Machine

/-! ## Images -/

/-- In the image of lines that name different cells, the cell a line names holds that line's cell (R55). -/
theorem find?_line {lines : List ImageLine} (h : (lines.map ImageLine.address).Nodup) {l : ImageLine} (hl : l ∈ lines) :
    (lines.find? fun k => k.address.toNat == l.address.toNat) = some l :=
  find?_eq_some_of_unique hl (beq_self_eq_true _) fun _ hk haddr =>
    List.inj_on_of_nodup_map h hk hl (BitVec.eq_of_toNat_eq (eq_of_beq haddr))

/-- Settles O7: the search for a cell's line finds the one line that names it, or none. -/
theorem imageHoldsItsLines : Obligations.ImageHoldsItsLines := by
  refine ⟨fun lines h => ⟨_, if_pos h, fun l hl i hi => ?_, fun i hi => ?_⟩, fun address m n => ⟨?_, ?_⟩, fun _ _ => rfl,
    fun lines h => if_neg h⟩
  · simp only [hi, find?_line h hl, Option.map_some, Option.getD_some]
  · have hnone : (lines.find? fun l => l.address.toNat == i.val) = none := by simpa using hi
    simp only [hnone, Option.map_none, Option.getD_none]
  · exact cellOf_eq_shift_or _ n
  · exact (cellOf_eq_shift_or _ 0).trans (by simp)

/-! ## Ignored operands -/

/-- A word without IO and II neither reads nor writes `ir` (R49, R64, R73). -/
theorem wordState_setIr_of_no_io {cw : ControlWord} (s : State) (c : Byte) (hio : cw.io = false) (hii : cw.ii = false) :
    wordState cw (s.setIr c) = (wordState cw s).setIr c := by
  have hb : wordBus cw (s.setIr c) = wordBus cw s := by simp only [wordBus, hio]; rfl
  simp only [wordState, hb, hii, take_false]
  rfl

/-- Words without IO and II run the same whatever `ir` holds, and keep it. -/
theorem runWords_setIr {words : List ControlWord} {s t : State} (c : Byte)
    (hir : ∀ cw ∈ words, cw.io = false ∧ cw.ii = false) (h : runWords words s = .next t) :
    runWords words (s.setIr c) = .next (t.setIr c) := by
  induction words generalizing s with
  | nil => cases h; rfl
  | cons cw rest ih =>
    obtain ⟨hs, rfl⟩ | ⟨hs, hw, ht⟩ := runWords_cons_cases h
    · exact runWords_of_halted _ hs
    · obtain ⟨hio, hii⟩ := hir cw List.mem_cons_self
      rw [runWords_cons rest (s := s.setIr c) hs hw, wordState_setIr_of_no_io s c hio hii]
      exact ih (fun k hk => hir k (List.mem_cons_of_mem _ hk)) ht

/-- Two instructions with the same opcode, whose words leave `ir` alone, differ in `ir` only (R49). -/
theorem exec_of_same_opcode {i j : Instr} {s t : State} (hop : j.opcode = i.opcode)
    (hir : ∀ cw ∈ rom i.opcode, cw.io = false ∧ cw.ii = false) (hs : s.halted = false) (h : exec i s = .next t) :
    exec j s = .next (t.setIr (encodeCell j)) := by
  rw [exec_of_running i hs, finishWords_eq_next_iff] at h
  obtain ⟨u, hu, rfl⟩ := h
  rw [exec_of_running j hs, hop, finishWords_eq_next_iff]
  exact ⟨_, runWords_setIr (s := s.setIr (encodeCell i)) (encodeCell j) hir hu, rfl⟩

/-- The forms whose operand is ignored (R49, R52). -/
def ignoringForms : List (Operand → Instr) :=
  [.nop, .unassigned3, .unassigned4, .unassigned5, .unassigned7, .unassigned8, .unassigned9, .unassignedA, .unassignedB,
    .unassignedC, .unassignedD, .out, .halt]

/-- The opcode of such a form does not depend on its operand, and none of its words has IO or II (R80, R88). -/
theorem ignoringForms_opcode : ∀ f ∈ ignoringForms, ∀ n m : Operand, (f m).opcode = (f n).opcode ∧
    ∀ cw ∈ rom (f n).opcode, cw.io = false ∧ cw.ii = false := by
  decide

/-- Settles O53: the operand reaches the machine through IO only, and these forms have no word with it. -/
theorem ignoredOperandsHaveNoEffect : Obligations.IgnoredOperandsHaveNoEffect := by
  intro n m s t f hf hs h
  obtain ⟨hop, hir⟩ := ignoringForms_opcode f hf n m
  exact exec_of_same_opcode hop hir hs h

end Sys2Proof.Machine
end

section
/-!
PROOFS. The statements of the control-flag family (spec/40_control_flag_handlers.md): which words the executor takes, the order of
the handler classes, and the ALU.
-/

namespace Sys2Proof.Machine

/-! ## Well-formed words -/

/-- `outputs` is the number of asserted flags, counted over the flags of the output class (R57). -/
theorem length_filter_output (cw : ControlWord) :
    (Flag.all.filter fun f => f.kind == .output && cw.has f).length = cw.outputs := by
  have hclass : (Flag.all.filter fun f => f.kind == .output && cw.has f) = [.ro, .io, .ao, .co, .eo].filter cw.has := rfl
  rw [hclass]
  rcases cw with ⟨ro, io, ao, co, eo, _, _, _, _, _, _, _, _, _, _⟩
  cases ro <;> cases io <;> cases ao <;> cases co <;> cases eo <;> rfl

/-- A word reads the bus when a flag of the input class or J is asserted (R57, R61). -/
theorem any_input_or_jump (cw : ControlWord) :
    (Flag.all.any fun f => (f.kind == .input || f == .j) && cw.has f) = cw.readsBus := by
  have hreaders : (Flag.all.any fun f => (f.kind == .input || f == .j) && cw.has f) =
      [.bi, .oi, .mi, .ri, .ii, .ai, .j].any cw.has := rfl
  rw [hreaders]
  simp [ControlWord.has, ControlWord.readsBus, Bool.or_assoc]

/-- The two conditions of R61. -/
theorem wellFormed_iff {cw : ControlWord} :
    cw.wellFormed = true ↔ cw.outputs ≤ 1 ∧ (cw.readsBus = true → cw.outputs = 1) := by
  simp only [ControlWord.wellFormed, Bool.and_eq_true, Bool.or_eq_true, Bool.not_eq_true', decide_eq_true_eq,
    ← Bool.not_eq_true, ← imp_iff_not_or]

/-- Settles O8: a well-formed word always answers `wordState`. -/
theorem wellFormedWordsComplete : Obligations.WellFormedWordsComplete :=
  fun cw s h => ⟨wordState cw s, applyWord_of_wellFormed cw s h⟩

/-- Settles O9: the counts over the classes are those of the word's own check, and the executor takes a word by that check. -/
theorem exactlyIllFormedWordsRefused : Obligations.ExactlyIllFormedWordsRefused := by
  intro cw s
  simp only [length_filter_output, any_input_or_jump, ← wellFormed_iff]
  refine ⟨⟨fun ⟨t, ht⟩ => ?_, fun h => wellFormedWordsComplete cw s h⟩, fun h => ?_⟩
  · obtain ⟨h, -⟩ := applyWord_eq_next_iff.mp ht
    exact h
  · exact applyWord_of_not_wellFormed cw s (Bool.eq_false_of_not_eq_true h)

/-! ## The order of the classes -/

/-- J loads the low nibble of the bus, whether or not CE has moved `pc` before it (R60, R77). -/
theorem wordState_pc_of_jump {cw : ControlWord} (s : State) (h : cw.wellFormed = true) (hj : cw.j = true) :
    ∃ v, wordBus cw s = some v ∧ (wordState cw s).pc.toNat = v.toNat % 16 := by
  obtain ⟨v, hv⟩ := wordBus_of_reads s h (by simp [ControlWord.readsBus, hj])
  exact ⟨v, hv, by simp [hj, hv]⟩

/-- Settles O10: the bus is decided by the registers of the start, and each input and J takes it from there. -/
theorem outputsRunBeforeInputs : Obligations.OutputsRunBeforeInputs := by
  intro cw s h
  obtain ⟨hro, hio, hao, hco, heo⟩ := wordBus_of_output s (outputs_le_one h)
  obtain ⟨hbi, hoi, hmi, hri, hii, hai⟩ := wordState_inputs s h
  refine ⟨wordState cw s, applyWord_of_wellFormed cw s h, hro, fun hf => ?_, hao, fun hf => ?_, heo, hbi, hoi, fun hf => ?_,
    hii, hai, fun hf => ?_, fun hf => ?_⟩
  · rw [wordState_bus, hio hf, operandByte_eq_and]
  · exact ⟨zext8 s.pc, hco hf, zext8_toNat s.pc⟩
  · obtain ⟨v, hv, haddr⟩ := hmi hf
    exact ⟨v, hv, by rw [haddr, trunc4_toNat]⟩
  · obtain ⟨v, hv, hmem⟩ := hri hf
    exact ⟨v, hv, .inr hmem⟩
  · obtain ⟨v, hv, hpc⟩ := wordState_pc_of_jump s h hf
    exact ⟨v, hv, fun hlt => .inl (by rw [hpc, Nat.mod_eq_of_lt hlt])⟩

/-- Settles O11: HLT and the later handlers write different fields, and J overwrites what CE wrote. -/
theorem miscHandlersAndTheirOrder : Obligations.MiscHandlersAndTheirOrder := by
  intro cw s h
  refine ⟨wordState cw s, applyWord_of_wellFormed cw s h, Bool.or_comm _ _, wordState_pc_of_jump s h, fun hj hce => ?_,
    fun hj hce => ?_⟩
  · have hpc : (wordState cw s).pc = s.pc + 1 := by simp [hj, hce]
    rw [hpc]
    exact BitVec.toNat_add s.pc 1
  · simp [hj, hce]

/-! ## The ALU -/

/-- The sum as a number (R68). -/
theorem alu_add_toNat (a b : Byte) : (alu a b false).toNat = (a.toNat + b.toNat) % 256 :=
  BitVec.toNat_add a b

/-- The difference as a number (R68). -/
theorem alu_sub_toNat (a b : Byte) : (alu a b true).toNat = (a.toNat + 256 - b.toNat) % 256 := by
  have hb : b.toNat < 256 := byte_toNat_lt b
  have hsub : (alu a b true).toNat = (256 - b.toNat + a.toNat) % 256 := BitVec.toNat_sub a b
  rw [hsub]
  congr 1
  omega

/-- Settles O16: the ALU's sum and difference as numbers, and the listed cases computed. -/
theorem aluAddsAndSubtractsModulo256 : Obligations.AluAddsAndSubtractsModulo256 :=
  ⟨fun a b => ⟨alu_add_toNat a b, alu_sub_toNat a b⟩, rfl, rfl, rfl, fun a => BitVec.sub_self a, rfl⟩

end Sys2Proof.Machine
end

section
/-!
PROOFS. The microcode family, part 1: what the ROM's words assert, the pulses that are left of an instruction, and each
instruction's execute phase (spec/41_microcode_rom.md R79 to R89; spec/42_sequencer_and_clock.md R92 to R95).
-/

namespace Sys2Proof.Machine

/-! ## The ROM -/

/-- An opcode that no mnemonic but NOP has names no word (R82, R88, R51). -/
theorem rom_eq_nil {op : Opcode} (h : ∀ m, m ≠ Mnemonic.nop → op ≠ Config.opc m) : rom op = [] := by
  rw [rom, romFor]
  cases hm : mnemonicOf Config.opc op with
  | none => rfl
  | some m =>
    have hnop : m = .nop := by
      by_contra hne
      exact h m hne (opc_of_mnemonicOf hm).symm
    rw [hnop]
    rfl

/-- Only the last word of a list can have HLT (R80). -/
theorem rom_hlt_last {op : Opcode} {k : Nat} (h : k + 1 < (rom op).length) : (rom op)[k].hlt = false := by
  have all : ∀ op : Opcode, ∀ cw ∈ (rom op).dropLast, cw.hlt = false := by decide
  have hk : k < (rom op).dropLast.length := by rw [List.length_dropLast]; omega
  rw [← List.getElem_dropLast hk]
  exact all op _ (List.getElem_mem hk)

/-- Only LDA's and ADD's words write `addr` or `a` (R80). -/
theorem rom_leaves_addr_a {op : Opcode} (hlda : op ≠ Config.opc .lda) (hadd : op ≠ Config.opc .add) :
    ∀ cw ∈ rom op, cw.mi = false ∧ cw.ai = false := by
  revert op; decide

/-- Only OUT's word writes `out` (R80). -/
theorem rom_leaves_out {op : Opcode} (h : op ≠ Config.opc .out) : ∀ cw ∈ rom op, cw.oi = false := by
  revert op; decide

/-- Only HALT's word halts (R80). -/
theorem rom_leaves_halted {op : Opcode} (h : op ≠ Config.opc .halt) : ∀ cw ∈ rom op, cw.hlt = false := by
  revert op; decide

/-- Settles O5: the table as written, each mnemonic's words inspected. -/
theorem romWordsAreTheTable : Obligations.RomWordsAreTheTable :=
  ⟨rfl, rfl, rfl, rfl, rfl, rfl, fun m => by cases m <;> decide⟩

/-- Settles O38: three fetch words and the length of each list, which is empty for an opcode left over. -/
theorem pulseCountsOfTheTable : Obligations.PulseCountsOfTheTable :=
  ⟨rfl, rfl, rfl, rfl, rfl, rfl, fun op hop => by rw [pulseCount, rom_eq_nil fun m _ h => hop m h.symm]; rfl⟩

/-! ## The words left of an instruction and their pulses -/

/-- Where the sequencer goes after word `k - 1`: to the next fetch if no word is left, and otherwise to a step from which just
these words are left (R93). -/
theorem wordsLeft_execFrom (op : Opcode) (k : Nat) (u : State) :
    ((rom op).drop k = [] → SeqStep.execFrom op k = .fetch 0) ∧
    ((rom op).drop k ≠ [] → SeqStep.execFrom op k ≠ .fetch 0 ∧
      (u.setSeqStep (SeqStep.execFrom op k)).wordsLeft = (rom op).drop k) := by
  rw [ne_eq, List.drop_eq_nil_iff, SeqStep.execFrom]
  split
  · next hk => exact ⟨fun hle => absurd hle (by omega), fun _ => ⟨nofun, rfl⟩⟩
  · next hk => exact ⟨fun _ => rfl, fun hlt => absurd (not_lt.mp hk) hlt⟩

/-- The sequencer names the first of the words that are left. If it is the last, the next fetch follows; if not, the sequencer is
inside the instruction, the machine still runs, and the others are left (R93, R94). -/
theorem wordsLeft_cons {s : State} {cw : ControlWord} (hw : s.seqStep.word = some cw) :
    ∃ rest, s.wordsLeft = cw :: rest ∧
      (rest = [] → s.seqStep.next (wordState cw s) = .fetch 0) ∧
      (rest ≠ [] → s.seqStep.next (wordState cw s) ≠ .fetch 0 ∧ cw.hlt = false ∧
        ((wordState cw s).setSeqStep (s.seqStep.next (wordState cw s))).wordsLeft = rest) := by
  cases hp : s.seqStep with
  | fetch i =>
    rw [hp] at hw
    match i with
    | 0 =>
      cases hw
      refine ⟨[fetch1, fetch2] ++ rom (opcodeField (memRead s.mem s.pc)), ?_, nofun, fun _ => ⟨nofun, rfl, ?_⟩⟩
      · rw [State.wordsLeft, State.cellInProgress, hp]
        rfl
      · rw [wordState_fetch0]
        rfl
    | 1 =>
      cases hw
      refine ⟨[fetch2] ++ rom (opcodeField (memRead s.mem s.addr)), ?_, nofun, fun _ => ⟨nofun, rfl, rfl⟩⟩
      rw [State.wordsLeft, State.cellInProgress, hp]
      rfl
    | 2 =>
      cases hw
      obtain ⟨hlast, hmore⟩ := wordsLeft_execFrom (opcodeField s.ir) 0 (wordState fetch2 s)
      refine ⟨rom (opcodeField s.ir), by rw [State.wordsLeft, State.cellInProgress, hp]; rfl, hlast, fun hne => ?_⟩
      obtain ⟨hnext, hleft⟩ := hmore hne
      exact ⟨hnext, rfl, hleft⟩
  | exec op k =>
    rw [hp] at hw
    obtain ⟨hk, rfl⟩ := List.getElem?_eq_some_iff.mp hw
    obtain ⟨hlast, hmore⟩ := wordsLeft_execFrom op (k + 1) (wordState (rom op)[k] s)
    refine ⟨(rom op).drop (k + 1), by rw [State.wordsLeft, hp]; exact List.drop_eq_getElem_cons hk, hlast, fun hne => ?_⟩
    obtain ⟨hnext, hleft⟩ := hmore hne
    exact ⟨hnext, rom_hlt_last (by simpa using hne), hleft⟩

/-- Moving the sequencer to where it stands changes nothing. -/
theorem State.setSeqStep_of_eq {s : State} {p : SeqStep} (h : s.seqStep = p) : s.setSeqStep p = s := by
  rw [← h]
  rfl

/-- A step of R26 has a word left, the one it names. -/
theorem wordsLeft_ne_nil {s : State} (hl : s.seqStep.legal = true) : s.wordsLeft ≠ [] := by
  obtain ⟨cw, hw⟩ := SeqStep.word_of_legal hl
  obtain ⟨rest, hcons, -⟩ := wordsLeft_cons hw
  rw [hcons]
  exact List.cons_ne_nil cw rest

/-- A pulse leaves a state in which the words after the first finish the instruction (R94, R96). -/
theorem pulse_of_wordsLeft {s : State} {cw : ControlWord} {rest : List ControlWord} (h : s.halted = false)
    (hl : s.seqStep.legal = true) (hwords : s.wordsLeft = cw :: rest) :
    ∃ t r, pulse s = .next (t, r) ∧ finishWords (cw :: rest) s = finishWords rest t ∧
      (rest = [] → t.seqStep = .fetch 0) ∧
      (rest ≠ [] → t.seqStep ≠ .fetch 0 ∧ t.halted = false ∧ t.seqStep.legal = true ∧ t.wordsLeft = rest) := by
  obtain ⟨cw', hw⟩ := SeqStep.word_of_legal hl
  obtain ⟨rest', hcons, hlast, hmore⟩ := wordsLeft_cons hw
  obtain ⟨rfl, rfl⟩ := List.cons.inj (hwords.symm.trans hcons)
  refine ⟨_, _, pulse_of_running h hw, ?_, hlast, fun hrest => ?_⟩
  · rw [finishWords_cons rest h (SeqStep.word_wellFormed hw), finishWords_setSeqStep]
  · obtain ⟨hnext, hhlt, hleft⟩ := hmore hrest
    exact ⟨hnext, by simp [hhlt, h], SeqStep.next_legal _ _, hleft⟩

/-- As many pulses as words are left finish the instruction in progress (R93, R95). -/
theorem pulses_wordsLeft {words : List ControlWord} {s : State} (h : s.halted = false) (hl : s.seqStep.legal = true)
    (hwords : s.wordsLeft = words) : pulses words.length s = finishWords words s := by
  induction words generalizing s with
  | nil => exact absurd hwords (wordsLeft_ne_nil hl)
  | cons cw rest ih =>
    obtain ⟨t, r, hpulse, hfinish, hlast, hmore⟩ := pulse_of_wordsLeft h hl hwords
    rw [List.length_cons, pulses_succ, hpulse, andThen_next, hfinish]
    by_cases hrest : rest = []
    · have ht : finishWords [] t = .next t := congrArg _ (State.setSeqStep_of_eq (hlast hrest))
      rw [hrest, ht]
      rfl
    · obtain ⟨-, hrun, hlegal, hleft⟩ := hmore hrest
      exact ih hrun hlegal hleft

/-- Fewer pulses, but at least one, stop inside the instruction (R93, R95). -/
theorem pulses_inside {words : List ControlWord} {s : State} (h : s.halted = false) (hl : s.seqStep.legal = true)
    (hwords : s.wordsLeft = words) {j : Nat} (hj : j + 1 < words.length) :
    ∃ u, pulses (j + 1) s = .next u ∧ u.seqStep ≠ .fetch 0 := by
  induction words generalizing s j with
  | nil => cases hj
  | cons cw rest ih =>
    have hj' : j < rest.length := Nat.lt_of_succ_lt_succ hj
    obtain ⟨t, r, hpulse, -, -, hmore⟩ := pulse_of_wordsLeft h hl hwords
    obtain ⟨hnext, hrun, hlegal, hleft⟩ := hmore (List.ne_nil_of_length_pos (Nat.zero_lt_of_lt hj'))
    rw [pulses_succ, hpulse, andThen_next]
    cases j with
    | zero => exact ⟨t, rfl, hnext⟩
    | succ j => exact ih hrun hlegal hleft hj'

/-- From a safe running state a step is the pulses of the words that are left (R93, R95). -/
theorem step_eq_pulses {s : State} (h : s.halted = false) (hl : s.seqStep.legal = true) :
    step s = pulses s.wordsLeft.length s := by
  rw [step_of_running h hl, pulses_wordsLeft h hl rfl]

/-- Between two instructions the three fetch words and the words of the cell at `pc` are left (R90, R92). -/
theorem wordsLeft_of_boundary {s : State} (h : s.AtBoundary) :
    s.wordsLeft = fetchWords ++ rom (opcodeField (memRead s.mem s.pc)) := by
  obtain ⟨-, hp⟩ := h
  rw [State.wordsLeft, State.cellInProgress, hp]
  rfl

/-- Between two instructions as many words are left as the instruction at `pc` takes pulses (R89). -/
theorem length_wordsLeft_of_boundary {s : State} (h : s.AtBoundary) :
    s.wordsLeft.length = pulseCount (opcodeField (memRead s.mem s.pc)) := by
  rw [wordsLeft_of_boundary h, List.length_append]
  rfl

/-- The sequencer of a machine between two instructions is at a step of R26. -/
theorem State.AtBoundary.legal {s : State} (h : s.AtBoundary) : s.seqStep.legal = true := by
  obtain ⟨-, hp⟩ := h
  rw [hp]
  rfl

/-- Settles O36: the words left at a boundary are the fetch words and the ROM's list, one per pulse. -/
theorem stepIsItsPulses : Obligations.StepIsItsPulses := by
  intro s hs
  have hrun : s.halted = false := hs.1
  have hwf : ∀ cw ∈ s.wordsLeft, cw.wellFormed = true := by
    rw [wordsLeft_of_boundary hs]
    exact fun cw hcw => (List.mem_append.mp hcw).elim fetchWords_wellFormed rom_wellFormed
  obtain ⟨t, -, hfinish⟩ := finishWords_completes s.wordsLeft s hwf
  have hstep : step s = .next (t.setSeqStep (.fetch 0)) := (step_of_running hrun hs.legal).trans hfinish
  have hlen := length_wordsLeft_of_boundary hs
  refine ⟨_, hstep, ?_, rfl, fun j hj hlt => ?_⟩
  · rw [← hstep, step_eq_pulses hrun hs.legal, hlen]
    rfl
  · obtain ⟨j, rfl⟩ := Nat.exists_eq_succ_of_ne_zero hj.ne'
    exact pulses_inside hrun hs.legal rfl (hlen ▸ hlt)

/-! ## Each execute phase -/

/-- `{RO, AI}`: the cell of `addr` goes into `a` (R83). -/
theorem wordState_roAi (s : State) : wordState (.ofFlags [.ro, .ai]) s =
    { s with a := memRead s.mem s.addr, bus := some (memRead s.mem s.addr) } := rfl

/-- `{AO, OI}`: `a` goes into `out` (R86). -/
theorem wordState_aoOi (s : State) : wordState (.ofFlags [.ao, .oi]) s = { s with out := s.a, bus := some s.a } := rfl

/-- `{HLT}`: the machine halts and the bus stays `undef` (R87). -/
theorem wordState_hlt (s : State) : wordState (.ofFlags [.hlt]) s = { s with bus := none, halted := true } := rfl

/-- An instruction without words leaves only its cell in `ir` (R82, R88). -/
theorem exec_of_rom_eq_nil {i : Instr} {s : State} (hrom : rom i.opcode = []) (h : s.halted = false) :
    exec i s = .next { s with ir := encodeCell i, seqStep := .fetch 0 } := by
  rw [exec_of_running i h, hrom]
  rfl

/-- NOP and the ten unassigned rows, with operand `n` (R82, R88). -/
def idleInstrs (n : Operand) : List Instr :=
  [.nop n, .unassigned3 n, .unassigned4 n, .unassigned5 n, .unassigned7 n, .unassigned8 n, .unassigned9 n, .unassignedA n,
    .unassignedB n, .unassignedC n, .unassignedD n]

/-- Their lists are empty (R80). -/
theorem rom_of_idle : ∀ n : Operand, ∀ i ∈ idleInstrs n, rom i.opcode = [] := by
  decide

/-- Settles O39: these instructions have no word. -/
theorem idleInstructionsComplete : Obligations.IdleInstructionsComplete :=
  fun n _ hs i hi => exec_of_rom_eq_nil (rom_of_idle n i hi) hs

/-- Settles O40: `{IO, MI}`, then `{RO, AI}`. -/
theorem ldaCompletes : Obligations.LdaCompletes := by
  intro n s hs
  have hn : operandField (encodeCell (.lda n)) = n := operandField_cellOf _ n
  rw [exec_of_running _ hs]
  change finishWords [.ofFlags [.io, .mi], .ofFlags [.ro, .ai]] _ = _
  rw [finishWords_cons _ (by exact hs) rfl, wordState_ioMi, finishWords_cons _ (by exact hs) rfl, wordState_roAi]
  simp only [State.setIr, hn]
  rfl

/-- Settles O41: `{IO, MI}`, `{RO, BI}`, then `{EO, AI}`. -/
theorem addCompletes : Obligations.AddCompletes := fun n _ hs => exec_add n hs

/-- Settles O42: the one word `{IO, J}`. -/
theorem jmpCompletes : Obligations.JmpCompletes := fun n _ hs => exec_jmp n hs

/-- Settles O43: the one word `{AO, OI}`. -/
theorem outCompletes : Obligations.OutCompletes := by
  intro n s hs
  rw [exec_of_running _ hs]
  change finishWords [.ofFlags [.ao, .oi]] _ = _
  rw [finishWords_cons _ (by exact hs) rfl, wordState_aoOi]
  rfl

/-- Settles O44: the one word `{HLT}`. -/
theorem haltCompletes : Obligations.HaltCompletes := by
  intro n s hs
  rw [exec_of_running _ hs]
  change finishWords [.ofFlags [.hlt]] _ = _
  rw [finishWords_cons _ (by exact hs) rfl, wordState_hlt]
  rfl

end Sys2Proof.Machine
end

section
/-!
PROOFS. The microcode family, part 2: the instructions as a whole, fetch included, their frame, and the JMP to its own cell
(spec/41_microcode_rom.md R82 to R88; spec/42_sequencer_and_clock.md R101).
-/

namespace Sys2Proof.Machine

/-! ## Whole instructions -/

/-- Between two instructions, with the cell of `i` at `pc`, the step and `i`'s pulses both answer what `i` makes of the fetched
state: the sequencer is at the next fetch, where it was before (R89, R90, R95). -/
theorem whole_instruction {s t : State} {i : Instr} (h : s.AtBoundary) (hcell : memRead s.mem s.pc = encodeCell i)
    (hexec : exec i s.fetched = .next (t.setSeqStep (.fetch 0))) (hseq : t.seqStep = s.seqStep) :
    step s = .next t ∧ pulses (pulseCount i.opcode) s = .next t := by
  have hself : t.setSeqStep (.fetch 0) = t := State.setSeqStep_of_eq (hseq.trans h.2)
  have hop : opcodeField (encodeCell i) = i.opcode := opcodeField_cellOf _ _
  have hstep : step s = .next t := by rw [step_of_boundary h, hcell, decodeCell_encodeCell, hexec, hself]
  have hlen : s.wordsLeft.length = pulseCount i.opcode := by rw [length_wordsLeft_of_boundary h, hcell, hop]
  exact ⟨hstep, by rw [← hlen, ← step_eq_pulses h.1 h.legal, hstep]⟩

/-- Settles O45: an opcode without words leaves the fetched state as it is. -/
theorem nopAndUnassignedOnlyFetch : Obligations.NopAndUnassignedOnlyFetch := by
  intro s hs hop t
  have hrom : rom (decodeCell (memRead s.mem s.pc)).opcode = [] := by
    rw [opcode_decodeCell]
    exact rom_eq_nil hop
  have hexec : exec (decodeCell (memRead s.mem s.pc)) s.fetched = .next (t.setSeqStep (.fetch 0)) := by
    rw [exec_of_rom_eq_nil (s := s.fetched) hrom hs.1, encodeCell_decodeCell]
    rfl
  have hcount : pulseCount (decodeCell (memRead s.mem s.pc)).opcode = 3 := by rw [pulseCount, hrom]; rfl
  exact hcount ▸ whole_instruction hs (encodeCell_decodeCell _).symm hexec rfl

/-- Settles O46: the fetch, then LDA's two words. -/
theorem ldaWholeInstruction : Obligations.LdaWholeInstruction :=
  fun s n hs hcell => whole_instruction (i := .lda n) hs hcell (ldaCompletes n s.fetched hs.1) rfl

/-- Settles O47: the fetch, then ADD's three words; the sum is the ALU's (R68). -/
theorem addWholeInstruction : Obligations.AddWholeInstruction :=
  fun s n hs hcell => ⟨s.a + memRead s.mem n, alu_add_toNat s.a _,
    whole_instruction (i := .add n) hs hcell (addCompletes n s.fetched hs.1) rfl⟩

/-- Settles O48: the fetch, then `{IO, J}`. -/
theorem jmpWholeInstruction : Obligations.JmpWholeInstruction :=
  fun s n hs hcell => whole_instruction (i := .jmp n) hs hcell (jmpCompletes n s.fetched hs.1) rfl

/-- Settles O49: the fetch, then `{AO, OI}`. -/
theorem outWholeInstruction : Obligations.OutWholeInstruction :=
  fun s n hs hcell => whole_instruction (i := .out n) hs hcell (outCompletes n s.fetched hs.1) rfl

/-- Settles O50: the fetch, then `{HLT}`, which leaves a halted machine. -/
theorem haltWholeInstruction : Obligations.HaltWholeInstruction := by
  intro s n hs hcell t
  obtain ⟨hstep, hpulses⟩ :=
    whole_instruction (t := t) (i := .halt n) hs hcell (haltCompletes n s.fetched hs.1) rfl
  exact ⟨hstep, hpulses, pulse_of_halted rfl, step_of_halted rfl⟩

/-! ## The frame -/

/-- An instruction that is no row of `m` has another opcode (R50, R51). -/
theorem opcode_ne_of_ne_row {i : Instr} {m : Mnemonic} (h : ∀ n, i ≠ m.row n) : i.opcode ≠ Config.opc m := by
  have hrow : (m.row i.operand).opcode = Config.opc m ∧ (m.row i.operand).operand = i.operand := by
    cases m <;> exact ⟨rfl, rfl⟩
  obtain ⟨hop, hn⟩ := hrow
  exact fun heq => h i.operand (instr_eq_of_fields (heq.trans hop.symm) hn.symm)

/-- What every word of an instruction's list keeps, the instruction keeps, unless it is `ir` or the sequencer step (R93). -/
theorem exec_keeps {α : Type} (f : State → α) {i : Instr} {s t : State}
    (hf : ∀ (x : State) (c : Byte) (p : SeqStep), f { x with ir := c, seqStep := p } = f x)
    (hword : ∀ cw ∈ rom i.opcode, ∀ x, f (wordState cw x) = f x) (h : exec i s = .next t) : f t = f s := by
  obtain ⟨-, rfl⟩ | ⟨-, u, hu, rfl⟩ := exec_cases h
  · rfl
  · have hkept : f u = f s := runWords_keeps (P := fun x => f x = f s)
      (fun cw hcw x hx => (hword cw hcw x).trans hx) (hf s _ s.seqStep) hu
    exact (hf u u.ir _).trans hkept

/-- Settles O51: each piece of state is kept by a list of words none of which asserts a flag that writes it. -/
theorem instructionFrame : Obligations.InstructionFrame := by
  intro i s t h
  refine ⟨fun n => ?_, fun hjmp => ?_, fun hlda hadd => ⟨?_, ?_⟩, fun hadd => ?_, fun hout => ?_, fun hhalt => ?_⟩
  · have hmem : t.mem = s.mem := exec_keeps State.mem (fun _ _ _ => rfl)
      (fun cw hcw x => wordState_keeps_mem x (rom_leaves_mem cw hcw)) h
    rw [hmem]
  · exact exec_keeps_pc (opcode_ne_of_ne_row (m := .jmp) hjmp) h
  · refine exec_keeps State.addr (fun _ _ _ => rfl) (fun cw hcw x => ?_) h
    obtain ⟨hmi, -⟩ := rom_leaves_addr_a (opcode_ne_of_ne_row (m := .lda) hlda) (opcode_ne_of_ne_row (m := .add) hadd) cw hcw
    rw [wordState_addr, hmi, take_false]
  · refine exec_keeps State.a (fun _ _ _ => rfl) (fun cw hcw x => ?_) h
    obtain ⟨-, hai⟩ := rom_leaves_addr_a (opcode_ne_of_ne_row (m := .lda) hlda) (opcode_ne_of_ne_row (m := .add) hadd) cw hcw
    rw [wordState_a, hai, take_false]
  · refine exec_keeps State.b (fun _ _ _ => rfl) (fun cw hcw x => ?_) h
    obtain ⟨-, hbi⟩ := rom_leaves_b (opcode_ne_of_ne_row (m := .add) hadd) cw hcw
    rw [wordState_b, hbi, take_false]
  · refine exec_keeps State.out (fun _ _ _ => rfl) (fun cw hcw x => ?_) h
    rw [wordState_out, rom_leaves_out (opcode_ne_of_ne_row (m := .out) hout) cw hcw, take_false]
  · refine exec_keeps State.halted (fun _ _ _ => rfl) (fun cw hcw x => ?_) h
    rw [wordState_halted, rom_leaves_halted (opcode_ne_of_ne_row (m := .halt) hhalt) cw hcw, Bool.false_or]

/-! ## A JMP to its own cell -/

/-- Between two instructions, with a JMP to its own cell at `pc`. -/
def State.JumpsToItself (s : State) : Prop := s.AtBoundary ∧ memRead s.mem s.pc = cellOf (Config.opc .jmp) s.pc

/-- A JMP to its own cell leads, by a step and by four pulses, to a state that is again before it (R85). -/
theorem State.JumpsToItself.step {s : State} (h : s.JumpsToItself) :
    ∃ t : State, Machine.step s = .next t ∧ pulses 4 s = .next t ∧ t.JumpsToItself ∧ t.pc = s.pc := by
  obtain ⟨hs, hcell⟩ := h
  obtain ⟨hstep, hpulses⟩ := jmpWholeInstruction s s.pc hs hcell
  exact ⟨_, hstep, hpulses, ⟨hs, hcell⟩, rfl⟩

/-- Any number of steps, and four times as many pulses, lead to the same such state. -/
theorem State.JumpsToItself.run {s : State} (h : s.JumpsToItself) (k : Nat) :
    ∃ t : State, Host.Core.run Sys2Proof.core k s = .next t ∧ pulses (4 * k) s = .next t ∧ t.JumpsToItself ∧ t.pc = s.pc := by
  induction k generalizing s with
  | zero => exact ⟨s, rfl, rfl, h, rfl⟩
  | succ k ih =>
    obtain ⟨u, hstep, hfour, hu, hpc⟩ := h.step
    obtain ⟨t, hrun, hpulses, ht, hpc'⟩ := ih hu
    refine ⟨t, (core_run_succ k hstep).trans hrun, ?_, ht, hpc'.trans hpc⟩
    rw [Nat.mul_succ, Nat.add_comm, pulses_add, hfour, andThen_next, hpulses]

/-- Settles O56: the state before a JMP to its own cell is an invariant that also fixes `pc`. -/
theorem jumpToItselfNeverEnds : Obligations.JumpToItselfNeverEnds := by
  intro s hs hcell k
  obtain ⟨t, hrun, hpulses, ⟨⟨hhalted, -⟩, -⟩, hpc⟩ := State.JumpsToItself.run ⟨hs, hcell⟩ k
  exact ⟨⟨t, hrun, hpc, hhalted⟩, t, hpulses, hpc, hhalted⟩

end Sys2Proof.Machine
end

section
/-!
PROOFS. The sequencer family, part 1: the words a pulse applies and where the sequencer goes (spec/42_sequencer_and_clock.md R90 to
R96), a step as the pulses that are left, halting, and the driver's requests (R98 to R106).
-/

namespace Sys2Proof.Machine

/-! ## The word of a pulse -/

/-- A pulse of a running machine reports the word of its sequencer step and the registers it leaves, moves on, and halts exactly
if the word has HLT (R75, R94, R96). -/
theorem pulse_applied {s : State} {cw : ControlWord} (h : s.halted = false) (hw : s.seqStep.word = some cw) :
    ∃ t, pulse s = .next (t, .applied cw t.snapshot) ∧ t.seqStep = s.seqStep.next (wordState cw s) ∧
      t.halted = cw.hlt :=
  ⟨_, pulse_of_running h hw, rfl, by simp [h]⟩

/-- A pulse always answers from a step of R26 (R62, R96). -/
theorem pulse_completes {s : State} (hl : s.seqStep.legal = true) : ∃ t r, pulse s = .next (t, r) := by
  cases h : s.halted with
  | true => exact ⟨_, _, pulse_of_halted h⟩
  | false =>
    obtain ⟨cw, hw⟩ := SeqStep.word_of_legal hl
    exact ⟨_, _, pulse_of_running h hw⟩

/-- A pulse leads from a step of R26 to a step of R26. -/
theorem pulse_legal {s t : State} {r : CycleResult} (hl : s.seqStep.legal = true) (h : pulse s = .next (t, r)) :
    t.seqStep.legal = true := by
  obtain ⟨-, rfl, -⟩ | ⟨-, _, -, rfl, -⟩ := pulse_cases h
  · exact hl
  · exact SeqStep.next_legal _ _

/-- The pulse of word `k` of an opcode's list leads to word `k + 1`, or to the next fetch (R93, R94). -/
theorem pulse_exec {s : State} {op : Opcode} {k : Nat} (hk : k < (rom op).length) (h : s.halted = false)
    (hp : s.seqStep = .exec op k) :
    ∃ t, pulse s = .next (t, .applied (rom op)[k] t.snapshot) ∧ t.seqStep = SeqStep.execFrom op (k + 1) := by
  obtain ⟨t, ht, hnext, -⟩ := pulse_applied h (cw := (rom op)[k]) (by rw [hp]; exact List.getElem?_eq_getElem hk)
  exact ⟨t, ht, by rw [hnext, hp]; rfl⟩

/-- Settles O27: the words of `Fetch(0)`, `Fetch(1)` and `Fetch(2)`, none of which reads the opcode. -/
theorem sameThreeFetchWords : Obligations.SameThreeFetchWords := by
  rintro s ⟨hrun, hp⟩
  obtain ⟨t1, h1, hp1, hrun1⟩ := pulse_applied hrun (cw := fetch0) (by rw [hp]; rfl)
  rw [hp] at hp1
  obtain ⟨t2, h2, hp2, hrun2⟩ := pulse_applied hrun1 (cw := fetch1) (by rw [hp1]; rfl)
  rw [hp1] at hp2
  obtain ⟨t3, h3, -⟩ := pulse_applied hrun2 (cw := fetch2) (by rw [hp2]; rfl)
  exact ⟨t1, t2, t3, h1, h2, h3⟩

/-- Settles O28: the three pulses of the fetch, the last of which latches the opcode. -/
theorem fetchEffect : Obligations.FetchEffect := fun _ hs => pulses_fetch hs

/-- Settles O29: F2 latches the opcode of `ir`, each word of the list leads to the one after it, and the list's end to F0. -/
theorem executeWordsInOrder : Obligations.ExecuteWordsInOrder := by
  refine ⟨fun s hlen hrun hp => ?_, fun s op k hk => pulse_exec hk, fun s hrun hp hrom => ?_, fun s hs => ?_⟩
  · obtain ⟨r, hr⟩ := pulse_fetch2 hrun hp
    have hseq : SeqStep.execFrom s.opcodeNibble 0 = .exec (opcodeField s.ir) 0 := if_pos hlen
    obtain ⟨u, hu, -⟩ := pulse_exec hlen hrun (s := { s with pc := s.pc + 1, bus := none, seqStep := _ }) hseq
    exact ⟨_, r, u, hr, hseq, hu⟩
  · obtain ⟨r, hr⟩ := pulse_fetch2 hrun hp
    obtain ⟨hend, -⟩ := wordsLeft_execFrom (opcodeField s.ir) 0 s
    exact ⟨_, hr, hend hrom⟩
  · obtain ⟨hrun, hp⟩ := hs
    refine ⟨_, pulse_of_running hrun (cw := fetch0) (by rw [hp]; rfl), ?_⟩
    rw [State.setSeqStep_addr, wordState_fetch0]

/-- Settles O30: the pulse of a halted machine, and of a running one at a step of R26. -/
theorem pulseAppliesOneWord : Obligations.PulseAppliesOneWord := by
  rintro s ⟨-, hl⟩
  refine ⟨pulse_of_halted, fun hrun => ?_⟩
  obtain ⟨cw, hw⟩ := SeqStep.word_of_legal hl
  exact ⟨cw, _, hw, applyWord_of_wellFormed cw s (SeqStep.word_wellFormed hw), pulse_of_running hrun hw⟩

/-! ## A step as the pulses that are left -/

/-- Settles O35: the step of a machine between two instructions. -/
theorem stepRunsTheDecodedInstruction : Obligations.StepRunsTheDecodedInstruction := fun _ hs => step_of_boundary hs

/-- No list of the ROM has more than three words (R80). -/
theorem length_rom_le (op : Opcode) : (rom op).length ≤ 3 := by
  revert op; decide

/-- At most six words are left of an instruction (R89, R93). -/
theorem length_wordsLeft_le (s : State) : s.wordsLeft.length ≤ 6 := by
  rw [State.wordsLeft]
  split
  · next i _ =>
    have hrom := length_rom_le (opcodeField s.cellInProgress)
    have hfetch : fetchWords.length = 3 := rfl
    rw [List.length_append, List.length_drop]
    omega
  · next op k _ =>
    have hrom := length_rom_le op
    rw [List.length_drop]
    omega

/-- Each word that is left of an instruction is well-formed (R61). -/
theorem wordsLeft_wellFormed (s : State) : ∀ cw ∈ s.wordsLeft, cw.wellFormed = true := by
  intro cw hcw
  rw [State.wordsLeft] at hcw
  split at hcw
  · obtain hf | hr := List.mem_append.mp hcw
    · exact fetchWords_wellFormed (List.mem_of_mem_drop hf)
    · exact rom_wellFormed hr
  · exact rom_wellFormed (List.mem_of_mem_drop hcw)

/-- Settles O37: the step applies the words that are left, one per pulse, and fewer pulses stop inside the instruction. -/
theorem stepFinishesTheInstructionInProgress : Obligations.StepFinishesTheInstructionInProgress := by
  rintro s ⟨-, hl⟩ hrun
  obtain ⟨t, -, hfinish⟩ := finishWords_completes s.wordsLeft s (wordsLeft_wellFormed s)
  have hpulses : pulses s.wordsLeft.length s = .next (t.setSeqStep (.fetch 0)) :=
    (pulses_wordsLeft hrun hl rfl).trans hfinish
  refine ⟨s.wordsLeft.length, _, List.length_pos_iff.mpr (wordsLeft_ne_nil hl), length_wordsLeft_le s, hpulses,
    (step_eq_pulses hrun hl).trans hpulses, rfl, fun j hj hlt => ?_⟩
  obtain ⟨j, rfl⟩ := Nat.exists_eq_succ_of_ne_zero hj.ne'
  exact pulses_inside hrun hl rfl hlt

/-! ## Halting -/

/-- No number of pulses changes a halted machine (R99). -/
theorem pulses_of_halted (n : Nat) {s : State} (h : s.halted = true) : pulses n s = .next s := by
  induction n with
  | zero => rfl
  | succ n ih => rw [pulses_succ, pulse_of_halted h, andThen_next, ih]

/-- Settles O31: the pulse applies the whole word before anything sees that the machine is halted. -/
theorem haltTakesEffectAtTheEndOfItsPulse : Obligations.HaltTakesEffectAtTheEndOfItsPulse := by
  intro s cw hrun hw hhlt
  have hhalted : (wordState cw s).halted = true := by simp [hhlt]
  exact ⟨_, applyWord_of_wellFormed cw s (SeqStep.word_wellFormed hw), pulse_of_running hrun hw, hhalted,
    fun n => ⟨pulses_of_halted n hhalted, pulse_of_halted hhalted⟩⟩

/-- A pulse leaves the machine halted when it was halted or its step's word has HLT (R75, R100). -/
theorem pulse_halted_iff {s t : State} {r : CycleResult} (h : pulse s = .next (t, r)) :
    t.halted = true ↔ s.halted = true ∨ ∃ cw, s.seqStep.word = some cw ∧ cw.hlt = true := by
  obtain ⟨hs, rfl, -⟩ | ⟨hs, cw, hw, rfl, -⟩ := pulse_cases h
  · simp [hs]
  · simp [hs, hw]

/-- After `k` pulses from `s` the machine runs, and its next pulse applies a word with HLT. -/
def State.HaltsAtPulse (s : State) (k : Nat) : Prop :=
  ∃ u cw, pulses k s = .next u ∧ u.halted = false ∧ u.seqStep.word = some cw ∧ cw.hlt = true

/-- Whether it does is decided by the state that the `k` pulses leave. -/
theorem State.haltsAtPulse_iff {s t : State} {k : Nat} (h : pulses k s = .next t) :
    s.HaltsAtPulse k ↔ t.halted = false ∧ ∃ cw, t.seqStep.word = some cw ∧ cw.hlt = true := by
  simp [State.HaltsAtPulse, h]

/-- Pulses from a running machine at a step of R26 always answer, and halt it exactly by a word with HLT (R100, R101). -/
theorem pulses_halted_iff {s : State} (hl : s.seqStep.legal = true) (hs : s.halted = false) (n : Nat) :
    ∃ t, pulses n s = .next t ∧ t.seqStep.legal = true ∧ (t.halted = true ↔ ∃ k < n, s.HaltsAtPulse k) := by
  induction n with
  | zero => exact ⟨s, rfl, hl, by simp [hs]⟩
  | succ n ih =>
    obtain ⟨t, ht, htl, hiff⟩ := ih
    obtain ⟨u, r, hu⟩ := pulse_completes htl
    refine ⟨u, by rw [pulses_add n 1, ht, andThen_next, pulses_succ, hu]; rfl, pulse_legal htl hu, ?_⟩
    rw [pulse_halted_iff hu, Nat.exists_lt_succ_right, ← hiff, State.haltsAtPulse_iff ht]
    cases t.halted <;> simp

/-- Settles O33: one pulse by cases, and the pulses from creation by induction on their number. -/
theorem haltedExactlyAfterAHaltWord : Obligations.HaltedExactlyAfterAHaltWord := by
  refine ⟨fun s t r h => pulse_halted_iff h, fun img n => ?_⟩
  obtain ⟨t, ht, -, hiff⟩ := pulses_halted_iff (s := State.new img) rfl rfl n
  exact ⟨t, ht, hiff⟩

/-! ## The driver -/

/-- A request is answered from every safe state, and leaves what its pulses, one or none, leave (R102, R104). -/
theorem respond_completes (q : Request) {s : State} (hs : s.Safe) :
    ∃ t x, respond q s = .next (t, x) ∧ t.Safe ∧ pulses ([q].count .pulse) s = .next t := by
  cases q with
  | pulse =>
    obtain ⟨t, r, hpulse⟩ := pulse_completes hs.2
    obtain ⟨-, hkept⟩ := safeStatesAreKept
    refine ⟨t, .cycle r, by rw [respond, hpulse, andThen_next], hkept s t r hs hpulse, ?_⟩
    change pulses 1 s = _
    rw [pulses_succ, hpulse]
    rfl
  | isHalted => exact ⟨s, _, rfl, hs, rfl⟩
  | inspect => exact ⟨s, _, rfl, hs, rfl⟩

/-- Settles O34: by induction on the requests, the pulses of the first and then those of the others. -/
theorem onlyPulsesChangeTheMachine : Obligations.OnlyPulsesChangeTheMachine := by
  intro qs
  induction qs with
  | nil => exact fun s _ => ⟨s, [], rfl, rfl, rfl⟩
  | cons q qs ih =>
    intro s hs
    obtain ⟨t, x, hrespond, ht, hfirst⟩ := respond_completes q hs
    obtain ⟨u, rs, hserve, hlen, hothers⟩ := ih t ht
    refine ⟨u, x :: rs, by rw [serve, hrespond, andThen_next, hserve, andThen_next], congrArg Nat.succ hlen, ?_⟩
    rw [← List.singleton_append, List.count_append, pulses_add, hfirst, andThen_next, hothers]

end Sys2Proof.Machine
end

section
/-!
PROOFS. The sequencer family, part 2: the two invariants, what the position in an instruction says about the registers (R91 to R94)
and a run over a memory without HALT cells (R101).
-/

namespace Sys2Proof.Machine

/-! ## What each position says -/

/-- Between two instructions nothing is said about the registers. -/
theorem State.inFlight_of_fetch0 {s : State} (hp : s.seqStep = .fetch 0) : s.InFlight := by
  simp [State.InFlight, hp]

/-- After F0. -/
theorem State.inFlight_fetch1_iff {s : State} (h : s.halted = false) (hp : s.seqStep = .fetch 1) :
    s.InFlight ↔ s.addr = s.pc ∧ s.bus = some (zext8 s.pc) := by
  simp [State.InFlight, h, hp]

/-- After F1. -/
theorem State.inFlight_fetch2_iff {s : State} (h : s.halted = false) (hp : s.seqStep = .fetch 2) :
    s.InFlight ↔ s.addr = s.pc ∧ s.ir = memRead s.mem s.addr ∧ s.bus = some s.ir := by
  simp [State.InFlight, h, hp]

/-- Before word `k` of an execute phase. -/
theorem State.inFlight_exec_iff {s : State} {op : Opcode} {k : Nat} (h : s.halted = false) (hp : s.seqStep = .exec op k) :
    s.InFlight ↔ op = s.opcodeNibble ∧ k < (rom op).length ∧
      (k = 0 → s.pc = s.addr + 1 ∧ s.ir = memRead s.mem s.addr ∧ s.bus = none) ∧
      (k = 1 → s.addr = operandField s.ir ∧ s.bus = some s.operandByte) ∧
      (k = 2 → s.addr = operandField s.ir ∧ s.b = memRead s.mem s.addr ∧ s.bus = some s.b) := by
  simp [State.InFlight, h, hp]

/-! ## The words that are followed by another -/

/-- A list of two words or more begins with `{IO, MI}` (R80). -/
theorem rom_first_word {op : Opcode} (h : 1 < (rom op).length) : (rom op)[0]? = some (.ofFlags [.io, .mi]) := by
  revert op; decide

/-- A list of three words has `{RO, BI}` in the middle (R80). -/
theorem rom_second_word {op : Opcode} (h : 2 < (rom op).length) : (rom op)[1]? = some (.ofFlags [.ro, .bi]) := by
  revert op; decide

/-! ## One pulse -/

/-- F2 leaves what is said before word 0: `pc` is one past the cell that `ir` holds (R91, R92). -/
theorem State.InFlight.after_fetch2 {s : State} (hs : s.InFlight) (h : s.halted = false) (hp : s.seqStep = .fetch 2) :
    State.InFlight { s with pc := s.pc + 1, bus := none, seqStep := SeqStep.execFrom s.opcodeNibble 0 } := by
  obtain ⟨haddr, hir, -⟩ := (State.inFlight_fetch2_iff h hp).mp hs
  by_cases hlen : 0 < (rom s.opcodeNibble).length
  · have hseq : SeqStep.execFrom s.opcodeNibble 0 = .exec s.opcodeNibble 0 := if_pos hlen
    exact Iff.mpr (State.inFlight_exec_iff h hseq)
      ⟨rfl, hlen, fun _ => ⟨congrArg (· + 1) haddr.symm, hir, rfl⟩, nofun, nofun⟩
  · exact State.inFlight_of_fetch0 (if_neg hlen)

/-- Word `k` of an execute phase leaves what is said before word `k + 1`, or ends the instruction (R83, R84, R93). -/
theorem State.InFlight.after_exec {s : State} {op : Opcode} {k : Nat} {cw : ControlWord} (hs : s.InFlight)
    (h : s.halted = false) (hp : s.seqStep = .exec op k) (hw : (rom op)[k]? = some cw) :
    ((wordState cw s).setSeqStep (SeqStep.execFrom op (k + 1))).InFlight := by
  obtain ⟨hop, -, -, hone, -⟩ := (State.inFlight_exec_iff h hp).mp hs
  by_cases hmore : k + 1 < (rom op).length
  · have hseq : SeqStep.execFrom op (k + 1) = .exec op (k + 1) := if_pos hmore
    have hlen := length_rom_le op
    obtain rfl | rfl : k = 0 ∨ k = 1 := by omega
    · obtain rfl := Option.some.inj ((rom_first_word hmore).symm.trans hw)
      rw [wordState_ioMi]
      exact Iff.mpr (State.inFlight_exec_iff h hseq) ⟨hop, hmore, nofun, fun _ => ⟨rfl, rfl⟩, nofun⟩
    · obtain rfl := Option.some.inj ((rom_second_word hmore).symm.trans hw)
      obtain ⟨haddr, -⟩ := hone rfl
      rw [wordState_roBi]
      exact Iff.mpr (State.inFlight_exec_iff h hseq) ⟨hop, hmore, nofun, nofun, fun _ => ⟨haddr, rfl, rfl⟩⟩
  · exact State.inFlight_of_fetch0 (if_neg hmore)

/-- A pulse keeps what the position says (R91 to R94). -/
theorem State.InFlight.pulse {s t : State} {r : CycleResult} (hs : s.InFlight) (h : pulse s = .next (t, r)) :
    t.InFlight := by
  obtain ⟨-, rfl, -⟩ | ⟨hrun, cw, hw, rfl, -⟩ := pulse_cases h
  · exact hs
  · cases hp : s.seqStep with
    | fetch i =>
      rw [hp] at hw
      match i with
      | 0 =>
        cases hw
        rw [wordState_fetch0]
        exact Iff.mpr (State.inFlight_fetch1_iff hrun rfl) ⟨rfl, rfl⟩
      | 1 =>
        cases hw
        obtain ⟨haddr, -⟩ := (State.inFlight_fetch1_iff hrun hp).mp hs
        exact Iff.mpr (State.inFlight_fetch2_iff hrun rfl) ⟨haddr, rfl, rfl⟩
      | 2 =>
        cases hw
        exact hs.after_fetch2 hrun hp
    | exec op k =>
      rw [hp] at hw
      exact hs.after_exec hrun hp hw

/-- Settles O24: a pulse by its position, and a step that applies a word ends between two instructions. -/
theorem inFlightIsKept : Obligations.InFlightIsKept := by
  refine ⟨fun s t r hs h => hs.pulse h, fun s t hs h => ?_⟩
  obtain ⟨-, rfl⟩ | ⟨-, -, u, -, rfl⟩ := step_cases h
  · exact hs
  · exact State.inFlight_of_fetch0 rfl

/-! ## A run without HALT cells -/

/-- Every instruction leaves the sequencer of a running machine at the next fetch (R93). -/
theorem exec_seqStep {i : Instr} {s t : State} (hs : s.halted = false) (h : exec i s = .next t) : t.seqStep = .fetch 0 := by
  obtain ⟨hhalted, -⟩ | ⟨-, u, -, rfl⟩ := exec_cases h
  · rw [hs] at hhalted
    cases hhalted
  · rfl

/-- Every instruction but HALT leaves a running machine running (R80, R101). -/
theorem exec_keeps_running {i : Instr} {s t : State} (hi : i.opcode ≠ Config.opc .halt) (h : exec i s = .next t) :
    t.halted = s.halted :=
  exec_keeps State.halted (fun _ _ _ => rfl)
    (fun cw hcw x => by rw [wordState_halted, rom_leaves_halted hi cw hcw, Bool.false_or]) h

/-- Between two instructions, over a memory without HALT cells. -/
def State.NeverHalts (s : State) : Prop :=
  s.AtBoundary ∧ ∀ n : Nib, opcodeField (memRead s.mem n) ≠ Config.opc .halt

/-- The instruction at `pc` is not HALT, so its step ends between two instructions again, over the same memory (R33, R101). -/
theorem State.NeverHalts.step {s : State} (h : s.NeverHalts) :
    ∃ t : State, Machine.step s = .next t ∧ t.NeverHalts ∧ t.mem = s.mem := by
  obtain ⟨hs, hcells⟩ := h
  have hrun : s.fetched.halted = false := hs.1
  obtain ⟨t, ht⟩ := exec_completes (decodeCell (memRead s.mem s.pc)) s.fetched
  have hstep : Machine.step s = .next t := (step_of_boundary hs).trans ht
  obtain ⟨hsteps, -⟩ := memoryNeverChangesInARun
  have hmem : t.mem = s.mem := hsteps s t hstep
  have hkeeps := exec_keeps_running (by rw [opcode_decodeCell]; exact hcells s.pc) ht
  exact ⟨t, hstep, ⟨⟨hkeeps.trans hrun, exec_seqStep hrun ht⟩, by rw [hmem]; exact hcells⟩, hmem⟩

/-- Any number of steps ends between two instructions, over the same memory (R101). -/
theorem State.NeverHalts.run {s : State} (h : s.NeverHalts) (k : Nat) :
    ∃ t : State, Host.Core.run Sys2Proof.core k s = .next t ∧ t.NeverHalts ∧ t.mem = s.mem := by
  induction k generalizing s with
  | zero => exact ⟨s, rfl, h, rfl⟩
  | succ k ih =>
    obtain ⟨u, hstep, hu, hmem⟩ := h.step
    obtain ⟨t, hrun, ht, hmem'⟩ := ih hu
    exact ⟨t, (core_run_succ k hstep).trans hrun, ht, hmem'.trans hmem⟩

/-- Settles O55: a boundary over a memory without HALT cells is an invariant of the step. -/
theorem runWithoutHaltCellsNeverEnds : Obligations.RunWithoutHaltCellsNeverEnds := by
  refine ⟨fun s hs hcells => ?_, fun s hs hcells k => ?_⟩
  · obtain ⟨t, hstep, ⟨ht, -⟩, hmem⟩ := State.NeverHalts.step ⟨hs, hcells⟩
    exact ⟨t, hstep, ht, hmem⟩
  · obtain ⟨t, hrun, ⟨ht, -⟩, hmem⟩ := State.NeverHalts.run ⟨hs, hcells⟩ k
    exact ⟨t, hrun, ht, hmem⟩

end Sys2Proof.Machine
end

section
/-!
PROOFS. The exceptions family: no step or pulse of a safe state stops (spec/60_exceptions.md R107, R108), and nothing leaves or
changes a halted machine (R112).
-/

namespace Sys2Proof.Machine

/-! ## No stop -/

/-- A step always answers from a step of R26: each word that is left of the instruction is well-formed (R62, R93). -/
theorem step_completes {s : State} (hl : s.seqStep.legal = true) : ∃ t, step s = .next t := by
  cases h : s.halted with
  | true => exact ⟨s, step_of_halted h⟩
  | false =>
    obtain ⟨t, -, hfinish⟩ := finishWords_completes s.wordsLeft s (wordsLeft_wellFormed s)
    exact ⟨_, (step_of_running h hl).trans hfinish⟩

/-- Settles O25: the sequencer of a safe state is at a step of R26, from which both always answer. -/
theorem safeStatesNeverStop : Obligations.SafeStatesNeverStop := by
  rintro s ⟨-, hl⟩
  obtain ⟨t, r, hpulse⟩ := pulse_completes hl
  exact ⟨step_completes hl, (t, r), hpulse⟩

/-! ## The halted machine -/

/-- A request leaves a halted machine as it is, and the only cycle result it gets is `AlreadyHalted` (R99, R100). -/
theorem respond_of_halted (q : Request) {s : State} (h : s.halted = true) :
    ∃ x, respond q s = .next (s, x) ∧ ∀ r, x = .cycle r → r = .alreadyHalted := by
  cases q with
  | pulse =>
    refine ⟨.cycle .alreadyHalted, by rw [respond, pulse_of_halted h, andThen_next], fun r hr => ?_⟩
    exact (Response.cycle.inj hr).symm
  | isHalted => exact ⟨.halted s.isHalted, rfl, fun _ hr => Response.noConfusion hr⟩
  | inspect => exact ⟨.machine s.inspect, rfl, fun _ hr => Response.noConfusion hr⟩

/-- So does a list of requests, each of which is answered (R112). -/
theorem serve_of_halted (qs : List Request) {s : State} (h : s.halted = true) :
    ∃ rs, serve qs s = .next (s, rs) ∧ rs.length = qs.length ∧ ∀ r, Response.cycle r ∈ rs → r = .alreadyHalted := by
  induction qs with
  | nil => exact ⟨[], rfl, rfl, fun _ hr => absurd hr List.not_mem_nil⟩
  | cons q qs ih =>
    obtain ⟨x, hrespond, hx⟩ := respond_of_halted q h
    obtain ⟨rs, hserve, hlen, hrs⟩ := ih
    refine ⟨x :: rs, by rw [serve, hrespond, andThen_next, hserve, andThen_next], congrArg Nat.succ hlen, fun r hr => ?_⟩
    obtain hhead | htail := List.mem_cons.mp hr
    · exact hx r hhead.symm
    · exact hrs r htail

/-- Settles O32: the requests by induction on their list; a step and an instruction apply no word. -/
theorem haltedIsTerminal : Obligations.HaltedIsTerminal := fun _ hs =>
  ⟨fun qs => serve_of_halted qs hs, step_of_halted hs, fun i => exec_of_halted i hs⟩

end Sys2Proof.Machine
end

section
/-!
PROOFS. Creation: a created machine's cells are those of its image (spec/70_reset_and_hazards.md R120, R29).
-/

namespace Sys2Proof.Machine

/-- After storing the image's cells at a list of addresses, a listed address holds the image's cell; every other is unchanged. -/
theorem Memory.lookup_foldl_store (img : Fin 16 → Byte) (is : List (Fin 16)) {m : Memory} (h : m.wf = true) (j : Fin 16) :
    Memory.lookup (is.foldl (fun m i => Memory.store m i.val (img i)) m) j.val =
      if j ∈ is then img j else m.lookup j.val := by
  induction is generalizing m with
  | nil => rfl
  | cons i is ih =>
    have hstore : Memory.wf (m.store i.val (img i)) = true := Memory.store_wfFrom (img i) h (Nat.zero_le _) i.isLt
    rw [List.foldl_cons, ih hstore]
    by_cases hij : j = i
    · subst hij
      simp [Memory.lookup_store_same (img j) h]
    · simp [hij, Memory.lookup_store_other (img i) (Fin.val_ne_of_ne hij)]

/-- The memory of an image holds the image's cell at every address (R120). -/
@[simp] theorem memRead_ofImage (img : Fin 16 → Byte) (n : Nib) : memRead (Memory.ofImage img) n = img n.toFin := by
  have hlisted : n.toFin ∈ List.finRange 16 := List.mem_finRange _
  have hcell := Memory.lookup_foldl_store img (List.finRange 16) (m := []) rfl n.toFin
  rwa [if_pos hlisted] at hcell

/-- Settles O21: creation replaces only the memory of the reset state, by the image's, which is canonical. -/
theorem creationFromAnImage : Obligations.CreationFromAnImage := by
  refine fun img => ⟨rfl, rfl, rfl, rfl, rfl, rfl, rfl, fun n => ?_, rfl, rfl, ?_, rfl⟩
  · rw [State.new_mem, memRead_ofImage]
  · rw [State.new_mem, Memory.ofImage_wf]

end Sys2Proof.Machine
end
